-- ==== Sys2Proof/Word.lean ====
section
/-! DEFINITION. The widths of the engine's values (rules R5, R6) and the small sets of names its
control registers hold (rules R10, R14, R15). -/

namespace Sys2Proof

/-- A plaintext or ciphertext, BLOCK_W = 12 bits (R5). -/
abbrev Block := BitVec 12

/-- Left or Right half of a block, HALF_W = 6 bits (R5). -/
abbrev HalfBlock := BitVec 6

/-- The cipher key, KEY_W = 9 bits (R5). -/
abbrev MasterKey := BitVec 9

/-- A round key, SUBKEY_W = 8 bits (R5). -/
abbrev Subkey := BitVec 8

/-- The output of the expansion, EXP_W = 8 bits (R5). -/
abbrev ExpandedHalf := BitVec 8

/-- One nibble, SBOX_IN_W = 4 bits (R5). -/
abbrev SBoxInput := BitVec 4

/-- One S-box output, SBOX_OUT_W = 3 bits (R5). -/
abbrev SBoxOutput := BitVec 3

/-- A command word, CMD_W = 23 bits (R6, R45). -/
abbrev CommandWord := BitVec 23

/-- A record word, REC_W = 21 bits (R6, R52). -/
abbrev RecordWord := BitVec 21

/-- Where the sequencer is: the three values of PHASE (R10, R14). -/
inductive Phase where
  | idle
  | round
  | emit
  deriving DecidableEq, Repr, Inhabited

/-- The command in progress: the three values of OPR (R10, R15). -/
inductive Operation where
  | enc
  | dec
  | srch
  deriving DecidableEq, Repr, Inhabited

/-- The round index, "an integer 1..4": the values of RI and the indexes of the subkey file (R10,
R17). Index 0 and indexes above 4 do not exist, so they are no values of this type. DEDUCED for the
times RI holds no index (after reset, R24), unsafe: notes/assumptions/7.md. -/
inductive RoundIndex where
  | one
  | two
  | three
  | four
  deriving DecidableEq, Repr, Inhabited

end Sys2Proof
end

