-- ==== Sys2Proof/Machine/Literals.lean ====
section
/-! DEFINITION. The cipher's printed literals, each a named constant in this one file, so that a
corrected literal is a change of one line (item U6): the key schedule's masks and shift counts (rules
R60 to R64), the expansion wiring (rule R66), the two S-box tables (rules R68, R69). UNVERIFIED, unsafe:
the spec says its literals are unaudited (notes/assumptions/8.md). -/

namespace Sys2Proof.Machine

/-- Shift of K[1] (R61). -/
def k1Shift : Nat := 1

/-- Mask of K[1], after the shift (R61). -/
def k1Mask : MasterKey := 0x0FF#9

/-- Mask of K[2] (R62, C1): the low byte of the key, nothing shifted, nothing ORed in. -/
def k2Mask : MasterKey := 0x0FF#9

/-- K[3], the part shifted left: its mask (R63). -/
def k3LeftMask : MasterKey := 0x07F#9

/-- K[3], the part shifted left: its count (R63). -/
def k3LeftShift : Nat := 1

/-- K[3], the part shifted right: its mask (R63). -/
def k3RightMask : MasterKey := 0x100#9

/-- K[3], the part shifted right: its count (R63). -/
def k3RightShift : Nat := 8

/-- K[4], the part shifted left: its mask (R64). -/
def k4LeftMask : MasterKey := 0x03F#9

/-- K[4], the part shifted left: its count (R64). -/
def k4LeftShift : Nat := 2

/-- K[4], the part shifted right: its mask (R64). -/
def k4RightMask : MasterKey := 0x180#9

/-- K[4], the part shifted right: its count (R64). -/
def k4RightShift : Nat := 7

/-- The source bit of r for each output bit of E, from out bit 7 down to out bit 0 (R66, C5). -/
def expansionWiring : List Nat := [5, 4, 2, 3, 2, 3, 1, 0]

/-- S1 as printed: two rows of eight 3-bit entries (R68). -/
def s1Table : Vector (Vector SBoxOutput 8) 2 :=
  #v[#v[0b101, 0b010, 0b001, 0b110, 0b011, 0b100, 0b111, 0b000],
     #v[0b001, 0b100, 0b110, 0b010, 0b000, 0b111, 0b101, 0b011]]

/-- S2 as printed (R69). -/
def s2Table : Vector (Vector SBoxOutput 8) 2 :=
  #v[#v[0b100, 0b000, 0b110, 0b101, 0b111, 0b001, 0b011, 0b010],
     #v[0b101, 0b011, 0b000, 0b111, 0b110, 0b010, 0b001, 0b100]]

end Sys2Proof.Machine
end

