-- ==== Sys2Proof/Machine/Operands.lean ====
section
/-! DEFINITION. The forms operands and results take: a block and its halves (rules R11, R47), a
record word and its fields (rules R36, R52), the order of the round indexes (rule R14). -/

namespace Sys2Proof.Machine

/-- `block[11:6]`, the Left half (R47). -/
def leftHalf (b : Block) : HalfBlock := b.extractLsb' 6 6

/-- `block[5:0]`, the Right half (R47). -/
def rightHalf (b : Block) : HalfBlock := b.extractLsb' 0 6

/-- `L ‖ R` (R7, R11). -/
def joinHalves (l r : HalfBlock) : Block := l ++ r

/-- A record `key ‖ block` (R52). -/
def packRecord (key : MasterKey) (block : Block) : RecordWord := key ++ block

/-- Bits 20:12 of a record (R52). -/
def recordKey (w : RecordWord) : MasterKey := w.extractLsb' 12 9

/-- Bits 11:0 of a record (R52). -/
def recordBlock (w : RecordWord) : Block := w.extractLsb' 0 12

/-- The integer a round index is (R14). -/
def roundNumber : RoundIndex → Nat
  | .one => 1
  | .two => 2
  | .three => 3
  | .four => 4

/-- `RI + 1`, none past 4 (R77). -/
def nextRound : RoundIndex → Option RoundIndex
  | .one => some .two
  | .two => some .three
  | .three => some .four
  | .four => none

/-- `RI - 1`, none below 1 (R78). -/
def previousRound : RoundIndex → Option RoundIndex
  | .four => some .three
  | .three => some .two
  | .two => some .one
  | .one => none

end Sys2Proof.Machine
end

