-- ==== Sys2Proof/Machine/Datapath.lean ====
section
/-! DEFINITION. The combinational datapath: KeySchedule (rules R60 to R65), Expansion (rule R66), the
S-box lookup (rules R68 to R70) and the round function f (rule R72). -/

namespace Sys2Proof.Machine

/-- The key schedule KS (R60): `keySchedule k i` is K[i] of the key k. -/
def keySchedule (k : MasterKey) : RoundIndex → Subkey
  | .one => ((k >>> k1Shift) &&& k1Mask).setWidth 8
  | .two => (k &&& k2Mask).setWidth 8
  | .three =>
    (((k &&& k3LeftMask) <<< k3LeftShift) ||| ((k &&& k3RightMask) >>> k3RightShift)).setWidth 8
  | .four =>
    (((k &&& k4LeftMask) <<< k4LeftShift) ||| ((k &&& k4RightMask) >>> k4RightShift)).setWidth 8

/-- The expansion E (R66): the source bits of `expansionWiring`, the first the most significant. -/
def expand (r : HalfBlock) : ExpandedHalf :=
  expansionWiring.foldl (fun e src => (e <<< 1) ||| (BitVec.ofBool (r.getLsbD src)).setWidth 8) 0#8

/-- S-box lookup (R70): the row is `n[3]`, the column is `n[2:0]`. -/
def sboxLookup (table : Vector (Vector SBoxOutput 8) 2) (n : SBoxInput) : SBoxOutput :=
  (table.get (n.extractLsb' 3 1).toFin).get (n.extractLsb' 0 3).toFin

/-- S-box S1 (R68). -/
def s1 (n : SBoxInput) : SBoxOutput := sboxLookup s1Table n

/-- S-box S2 (R69). -/
def s2 (n : SBoxInput) : SBoxOutput := sboxLookup s2Table n

/-- Step 3 and 4 of f (R72): split the mixed byte into nibbles, substitute, concatenate. -/
def substitute (x : ExpandedHalf) : HalfBlock :=
  s1 (x.extractLsb' 4 4) ++ s2 (x.extractLsb' 0 4)

/-- The round function f (R72). -/
def roundFunction (r : HalfBlock) (k : Subkey) : HalfBlock := substitute (expand r ^^^ k)

end Sys2Proof.Machine
end

