-- ==== Sys2Proof/Machine/Cipher.lean ====
section
/-! DEFINITION. The Feistel steps on a pair of halves (rules R77, R78) and the pure functions
encrypt, decrypt and search built from them (rules R74, R75, R87). The steps are written for any
round function and any subkeys, because the round-trip law holds whatever they are (rule R83). -/

namespace Sys2Proof.Machine

/-- One encrypt step on (L, R): `(R, f(R, K) ^ L)` (R77). -/
def encryptStep (f : HalfBlock → Subkey → HalfBlock) (k : Subkey) (lr : HalfBlock × HalfBlock) :
    HalfBlock × HalfBlock :=
  (lr.2, f lr.2 k ^^^ lr.1)

/-- One decrypt step on (L, R): `(f(L, K) ^ R, L)` (R78). -/
def decryptStep (f : HalfBlock → Subkey → HalfBlock) (k : Subkey) (lr : HalfBlock × HalfBlock) :
    HalfBlock × HalfBlock :=
  (f lr.1 k ^^^ lr.2, lr.1)

/-- The halves of a block as a pair. -/
def splitBlock (b : Block) : HalfBlock × HalfBlock := (leftHalf b, rightHalf b)

/-- A pair of halves as a block. -/
def joinPair (lr : HalfBlock × HalfBlock) : Block := joinHalves lr.1 lr.2

/-- "For i = 1..=4" (R74). -/
def encryptOrder : List RoundIndex := [.one, .two, .three, .four]

/-- "For i = 4 down to 1" (R75). -/
def decryptOrder : List RoundIndex := [.four, .three, .two, .one]

/-- Four encrypt steps with the subkeys in the order 1, 2, 3, 4 (R74), for any f and any subkeys. -/
def encryptWith (f : HalfBlock → Subkey → HalfBlock) (ks : RoundIndex → Subkey) (p : Block) :
    Block :=
  joinPair (encryptOrder.foldl (fun lr i => encryptStep f (ks i) lr) (splitBlock p))

/-- Four decrypt steps with the subkeys in the order 4, 3, 2, 1 (R75), for any f and any subkeys. -/
def decryptWith (f : HalfBlock → Subkey → HalfBlock) (ks : RoundIndex → Subkey) (c : Block) :
    Block :=
  joinPair (decryptOrder.foldl (fun lr i => decryptStep f (ks i) lr) (splitBlock c))

/-- `encrypt(p, k)` (R74). -/
def encrypt (p : Block) (k : MasterKey) : Block := encryptWith roundFunction (keySchedule k) p

/-- `decrypt(c, k)` (R75). -/
def decrypt (c : Block) (k : MasterKey) : Block := decryptWith roundFunction (keySchedule k) c

/-- The pair `(k, decrypt(c, k))` of the k-th trial (R87). -/
def trial (c : Block) (k : Nat) : MasterKey × Block :=
  (BitVec.ofNat 9 k, decrypt c (BitVec.ofNat 9 k))

/-- `search(c)`: the trial of every key, ascending (R87, R88). -/
def search (c : Block) : List (MasterKey × Block) := (List.range 512).map (trial c)

/-- A pair as a record word (R52, R89). -/
def recordOfPair (p : MasterKey × Block) : RecordWord := packRecord p.1 p.2

end Sys2Proof.Machine
end

