-- ==== Sys2Proof/Config.lean ====
section
/-! DEFINITION. What the spec leaves open: the named values registers hold right after reset where rule
R24 gives none, and the free values registers take in a later cycle with `rst` = 1 (rule R113). The
constants of rule R5 are the widths in Word.lean, the four round indexes there (ROUNDS) and the 512
trials of `search` (NKEYS). -/

namespace Sys2Proof

/-! Values of the registers in `State.reset`. R24 calls them unspecified and says "never zero", so
each is the register's last value. DESIGN CHOICE, unsafe: notes/assumptions/1.md. -/

/-- OPR in `State.reset`. DESIGN CHOICE, unsafe (entry 1). -/
def Config.resetOpr : Operation := .srch

/-- RI in `State.reset`. DESIGN CHOICE, unsafe (entry 1). -/
def Config.resetRi : RoundIndex := .four

/-- KEYR in `State.reset`. DESIGN CHOICE, unsafe (entry 1). -/
def Config.resetKeyr : MasterKey := 0x1FF#9

/-- BLKR in `State.reset`. DESIGN CHOICE, unsafe (entry 1). -/
def Config.resetBlkr : Block := 0xFFF#12

/-- L in `State.reset`. DESIGN CHOICE, unsafe (entry 1). -/
def Config.resetL : HalfBlock := 0x3F#6

/-- R in `State.reset`. DESIGN CHOICE, unsafe (entry 1). -/
def Config.resetR : HalfBlock := 0x3F#6

/-! Free values after a cycle with `rst` = 1 (R113): "they may keep their old values or take any
other". Each depends on how many reset cycles have run and on the old value; nothing constrains it.
Safe: notes/assumptions/2.md. -/

/-- OPR after the n-th reset cycle, from its old value: free (R113). -/
opaque Config.freeOpr : Nat → Operation → Operation

/-- RI after the n-th reset cycle, from its old value: free (R113). -/
opaque Config.freeRi : Nat → RoundIndex → RoundIndex

/-- KEYR after the n-th reset cycle, from its old value: free (R113). -/
opaque Config.freeKeyr : Nat → MasterKey → MasterKey

/-- BLKR after the n-th reset cycle, from its old value: free (R113). -/
opaque Config.freeBlkr : Nat → Block → Block

/-- L after the n-th reset cycle, from its old value: free (R113). -/
opaque Config.freeL : Nat → HalfBlock → HalfBlock

/-- R after the n-th reset cycle, from its old value: free (R113). -/
opaque Config.freeR : Nat → HalfBlock → HalfBlock

end Sys2Proof
end

