-- ==== Sys2Proof/Machine/State.lean ====
section
/-! DEFINITION. The state: the seven registers of rule R10, the environment rule R19 names (OUT_LOG,
the command stream, the host's pins), and one counter of the model's own. -/

namespace Sys2Proof.Machine

/-- What the host does with `cmd_valid` and `cmd` in one clock cycle (R34, R41, R116). That the host
is held as a stream and a script is a DESIGN CHOICE, safe: notes/assumptions/4.md. -/
inductive CommandDrive where
  /-- It offers the head of its command stream; with an empty stream `cmd_valid` = 0. -/
  | offer
  /-- `cmd_valid` = 0, whatever its stream holds. -/
  | withhold
  /-- It puts `stream` in place of what it still had to offer, and offers the head of that. So it can
  append commands, and it can change or drop a word that waits (R116, U11). -/
  | restream (stream : List CommandWord)
  deriving DecidableEq, Repr

/-- The host's inputs to the engine in one clock cycle (R34). -/
structure HostCycle where
  /-- The `rst` pin. -/
  rst : Bool
  /-- The `cmd_valid` and `cmd` pins. -/
  cmd : CommandDrive
  /-- The `out_ready` pin. -/
  outReady : Bool
  deriving DecidableEq, Repr

/-- The host of the spec's examples and nominal counts: no reset, offers commands and takes records
at once (R122, 95_test_vectors.md section 4). -/
def HostCycle.eager : HostCycle := ⟨false, .offer, true⟩

/-- The whole state. -/
structure State where
  /-- PHASE (R10, R14). -/
  phase : Phase
  /-- OPR (R15). -/
  opr : Operation
  /-- RI (R14). -/
  ri : RoundIndex
  /-- KEYR (R12). -/
  keyr : MasterKey
  /-- BLKR (R13). -/
  blkr : Block
  /-- L (R11). -/
  l : HalfBlock
  /-- R (R11). -/
  r : HalfBlock
  /-- OUT_LOG, every record the host has taken, oldest first (R20). One log is kept across resets, as
  R113 lets a model choose. DESIGN CHOICE, safe: notes/assumptions/3.md. -/
  outLog : List RecordWord
  /-- The command words the host has still to hand over, in its order (R19, R35). -/
  cmdStream : List CommandWord
  /-- What the host drives in the coming cycles, one entry a cycle (R19, R34). -/
  hostScript : List HostCycle
  /-- What it drives in every cycle after those (R19, R34). -/
  hostRest : HostCycle
  /-- The model's own: how many cycles with `rst` = 1 have run. It only picks free values. -/
  freeCount : Nat
  deriving DecidableEq, Repr

/-- Reasons the machine stops with a fault: none. No step and no meaning raises one, because the
engine raises no exception (R100, R112). Safe: nothing is excluded. -/
inductive Fault where
  deriving DecidableEq, Repr

/-- Reasons an instruction has no meaning. -/
inductive Refusal where
  /-- Raised by an arm of `exec` whose instruction has no meaning yet; no arm does. Safe: it stops
  where the engine would go on. -/
  | notModelled (mnemonic : String)
  deriving DecidableEq, Repr

/-- The machine right after reset (R24, R113). PHASE and OUT_LOG are the spec's; the other registers
hold the values log entry 1 names; the host has nothing to offer and is the eager one (entry 4). Both
are DESIGN CHOICE, unsafe. The engine has been reset once (entry 11). -/
def State.reset : State where
  phase := .idle
  opr := Config.resetOpr
  ri := Config.resetRi
  keyr := Config.resetKeyr
  blkr := Config.resetBlkr
  l := Config.resetL
  r := Config.resetR
  outLog := []
  cmdStream := []
  hostScript := []
  hostRest := .eager
  freeCount := 0

end Sys2Proof.Machine
end

