-- ==== Sys2Proof/Machine/Flags.lean ====
section
/-! DEFINITION. The status outputs, each a function of PHASE (and of `rst`), none stored (rule R16),
and the `out` port (rules R34, R36). The engine has no condition codes (rule R16). -/

namespace Sys2Proof.Machine

/-- `busy`: PHASE is not IDLE (R16). -/
def busy (s : State) : Bool := decide (s.phase ≠ .idle)

/-- `cmd_ready` in a cycle whose reset pin is `rst`: PHASE is IDLE and `rst` = 0 (R16). -/
def cmdReady (s : State) (rst : Bool) : Bool := decide (s.phase = .idle) && !rst

/-- `out_valid`: PHASE is EMIT (R16). -/
def outValid (s : State) : Bool := decide (s.phase = .emit)

/-- `KEYR ‖ L ‖ R`, the record on offer (R36). -/
def offeredRecord (s : State) : RecordWord := packRecord s.keyr (joinHalves s.l s.r)

/-- The `out` port: the record while `out_valid` = 1, no value otherwise (R34, R117, U2).
DEDUCED, safe: notes/assumptions/5.md. -/
def outPort (s : State) : Option RecordWord := if outValid s then some (offeredRecord s) else none

end Sys2Proof.Machine
end

