-- ==== Sys2Proof/Machine/Ops.lean ====
section
/-! DEFINITION. The shared operations on the state: the reset cycle (rule R113), loading a command
(rules R79, R80, R89), one round (rules R77, R78), taking a record (rule R36). Taking an exception is
no operation of this engine: it has none (rules R100, R104). -/

namespace Sys2Proof.Machine

/-- A cycle with `rst` = 1 (R113, R114): PHASE becomes IDLE, the six other registers are unspecified
afterwards (free values), the log keeps what the host took. -/
def resetCycle (s : State) : State :=
  { s with
    phase := .idle
    opr := Config.freeOpr s.freeCount s.opr
    ri := Config.freeRi s.freeCount s.ri
    keyr := Config.freeKeyr s.freeCount s.keyr
    blkr := Config.freeBlkr s.freeCount s.blkr
    l := Config.freeL s.freeCount s.l
    r := Config.freeR s.freeCount s.r
    freeCount := s.freeCount + 1 }

/-- Start a trial: L, R from the block, RI, PHASE = ROUND (R79, R80, R89, R91). -/
def startRounds (s : State) (block : Block) (ri : RoundIndex) : State :=
  { s with l := leftHalf block, r := rightHalf block, ri := ri, phase := .round }

/-- Load every register a command reads (R79, R80, R89, R22). -/
def loadCommand (s : State) (op : Operation) (key : MasterKey) (block : Block) (ri : RoundIndex) :
    State :=
  startRounds { s with opr := op, keyr := key, blkr := block } block ri

/-- The acceptance step of a command whose effect on a ready engine is `effect`. While a command is
in progress an offered command waits and nothing changes (R35, R103). `step` never asks for that case.
DEDUCED, safe: notes/assumptions/13.md. -/
def acceptCommand (effect : State → State) (s : State) : Host.Outcome State Fault Refusal :=
  if s.phase = .idle then .next (effect s) else .next s

/-- Move the position after a round: the next RI, or EMIT with RI as it was (R77, R78). -/
def advanceRound (s : State) : Option RoundIndex → State
  | some i => { s with ri := i }
  | none => { s with phase := .emit }

/-- Write both halves at once (R8, R77, R78). -/
def setHalves (s : State) (lr : HalfBlock × HalfBlock) : State := { s with l := lr.1, r := lr.2 }

/-- `K[RI] = KS(KEYR)[RI]` (R17). -/
def currentSubkey (s : State) : Subkey := keySchedule s.keyr s.ri

/-- The encrypt round step (R77). -/
def encryptRound (s : State) : State :=
  advanceRound (setHalves s (encryptStep roundFunction (currentSubkey s) (s.l, s.r)))
    (nextRound s.ri)

/-- The decrypt round step (R78). -/
def decryptRound (s : State) : State :=
  advanceRound (setHalves s (decryptStep roundFunction (currentSubkey s) (s.l, s.r)))
    (previousRound s.ri)

/-- `Emit(KEYR ‖ L ‖ R)`: append the record to OUT_LOG (R8, R36). -/
def emitRecord (s : State) : State := { s with outLog := s.outLog ++ [offeredRecord s] }

end Sys2Proof.Machine
end

