-- ==== Sys2Proof/Machine/Feistel.lean ====
section
/-! DEFINITION. The commands NOP, ENC and DEC at acceptance (rules R76, R79, R80) and the emit step of
ENC and DEC (rule R81). -/

namespace Sys2Proof.Machine

/-- NOP: no register is written (R76, C8). -/
def execNop (s : State) : Host.Outcome State Fault Refusal := acceptCommand (fun s => s) s

/-- ENC: load the command, RI = 1 (R79). -/
def execEnc (block : Block) (key : MasterKey) (s : State) : Host.Outcome State Fault Refusal :=
  acceptCommand (fun s => loadCommand s .enc key block .one) s

/-- DEC: load the command, RI = 4 (R80). -/
def execDec (block : Block) (key : MasterKey) (s : State) : Host.Outcome State Fault Refusal :=
  acceptCommand (fun s => loadCommand s .dec key block .four) s

/-- The emit step of ENC and DEC (R81). The registers keep their values, as R81 says "for
definiteness" (U15), unsafe: notes/assumptions/12.md. -/
def emitSingle (s : State) : State := { emitRecord s with phase := .idle }

end Sys2Proof.Machine
end

