-- ==== Sys2Proof/Machine/Search.lean ====
section
/-! DEFINITION. The command SRCH at acceptance (rule R89) and its emit-and-advance step (rule R91). -/

namespace Sys2Proof.Machine

/-- SRCH: load the command with KEYR = 0, not the key field, and RI = 4 (R89). -/
def execSrch (block : Block) (s : State) : Host.Outcome State Fault Refusal :=
  acceptCommand (fun s => loadCommand s .srch 0#9 block .four) s

/-- KEYR = 511, the end test, which comes before the increment (R91). -/
def lastKey : MasterKey := 511#9

/-- The emit-and-advance step of SRCH (R91): the next key's trial starts from BLKR. -/
def emitSearch (s : State) : State :=
  if s.keyr = lastKey then { emitRecord s with phase := .idle }
  else startRounds { emitRecord s with keyr := s.keyr + 1#9 } s.blkr .four

end Sys2Proof.Machine
end

