-- ==== Sys2Proof/Syntax.lean ====
section
/-! DEFINITION. The four commands (rules R46, R48), one constructor per row of the opcode table, and
the commands as an assembler reads them (rule R51). -/

namespace Sys2Proof

/-- A command, the engine's instruction. Ignored fields are no operands (R49): two words that differ
only there are the same command (U3). Operands stand block first, as in R51. -/
inductive Instr where
  /-- No operation (R76). -/
  | nop
  /-- Encrypt `block` under `key` (R79). -/
  | enc (block : Block) (key : MasterKey)
  /-- Decrypt `block` under `key` (R80). -/
  | dec (block : Block) (key : MasterKey)
  /-- Decrypt `block` under every key (R89). -/
  | srch (block : Block)
  deriving DecidableEq, Repr

/-- A command as it stands in assembler text, its operands still plain numbers (R51). -/
inductive SourceCommand where
  | nop
  | enc (block key : Nat)
  | dec (block key : Nat)
  | srch (block : Nat)
  deriving DecidableEq, Repr

end Sys2Proof
end

