-- ==== Sys2Proof/Machine/Dispatch.lean ====
section
/-! DEFINITION. One arm per command, each one direct call of its meaning (rule R46). -/

namespace Sys2Proof.Machine

def exec (i : Instr) (s : State) : Host.Outcome State Fault Refusal :=
  match i with
  | .nop => Sys2Proof.Machine.execNop s
  | .enc block key => Sys2Proof.Machine.execEnc block key s
  | .dec block key => Sys2Proof.Machine.execDec block key s
  | .srch block => Sys2Proof.Machine.execSrch block s

end Sys2Proof.Machine
end

