-- ==== Sys2Proof/Decode.lean ====
section
/-! DEFINITION. The command decoder (rules R45 to R48), total on 23-bit words; the encoder in
canonical form (rule R49); the opcode table (rule R48); the host's numbering of a table row. -/

namespace Sys2Proof

/-- Bits 22:21, the operation (R45). -/
def opField (w : CommandWord) : BitVec 2 := w.extractLsb' 21 2

/-- Bits 20:12, the master key (R45, R47). -/
def keyField (w : CommandWord) : MasterKey := w.extractLsb' 12 9

/-- Bits 11:0, the block (R45, R47). -/
def blockField (w : CommandWord) : Block := w.extractLsb' 0 12

/-- Decode a command word (R46). Every word is exactly one of the four commands. -/
def decode (w : CommandWord) : Instr :=
  if opField w = 0b00#2 then .nop
  else if opField w = 0b01#2 then .enc (blockField w) (keyField w)
  else if opField w = 0b10#2 then .dec (blockField w) (keyField w)
  else .srch (blockField w)

/-- Why a bit pattern is no command. -/
inductive DecodeError where
  /-- The pattern has a bit above bit 22: it is wider than the `cmd` port, so it cannot be presented
  (R31, R45). -/
  | widerThanCommand
  deriving DecidableEq, Repr

/-- The command word a pattern of any width is. What is wider than the port is refused by name and
never cut down to a word (R31, U4). DEDUCED, safe: notes/assumptions/6.md. -/
def wordOfBits (w : Nat) : Except DecodeError CommandWord :=
  if w < 2 ^ 23 then .ok (BitVec.ofNat 23 w) else .error .widerThanCommand

/-- Decode a pattern of any width, refusing by name what is wider than a command word. -/
def decodeBits (w : Nat) : Except DecodeError Instr := (wordOfBits w).map decode

/-- The command read from a table row's bits `w`, bit 0 the least significant bit of the one word a
command has (R50). `nbits` is not needed: no command is longer or shorter than its word. -/
def decodeTableWord (_nbits w : Nat) : Option Instr :=
  match decodeBits w with
  | .ok i => some i
  | .error _ => none

/-- A command word from its three fields (R45). -/
def packCommand (op : BitVec 2) (key : MasterKey) (block : Block) : CommandWord :=
  op ++ key ++ block

/-- The canonical word of a command: zeros in ignored fields (R48, R49). -/
def encode : Instr → CommandWord
  | .nop => packCommand 0b00#2 0#9 0#12
  | .enc block key => packCommand 0b01#2 key block
  | .dec block key => packCommand 0b10#2 key block
  | .srch block => packCommand 0b11#2 0#9 block

/-- A row of the opcode table (R48). A word `w` is the row's command when `w &&& mask = pattern`. -/
structure OpcodeRow where
  mnemonic : String
  mask : CommandWord
  pattern : CommandWord
  /-- Bits a command of the row does not look at (R49). -/
  ignored : CommandWord
  /-- Records the command emits (R48, R53). -/
  records : Nat
  deriving DecidableEq, Repr

/-- The row of a command (R48). -/
def rowOf : Instr → OpcodeRow
  | .nop => ⟨"NOP", 0x600000#23, 0x000000#23, 0x1FFFFF#23, 0⟩
  | .enc _ _ => ⟨"ENC", 0x600000#23, 0x200000#23, 0x000000#23, 1⟩
  | .dec _ _ => ⟨"DEC", 0x600000#23, 0x400000#23, 0x000000#23, 1⟩
  | .srch _ => ⟨"SRCH", 0x600000#23, 0x600000#23, 0x1FF000#23, 512⟩

end Sys2Proof
end

