-- ==== Sys2Proof/Machine/Sequencer.lean ====
section
/-! DEFINITION. One clock cycle: the host's pins (rules R34, R41), the two handshakes (rules R35,
R36), and the transition table of rule R14. What a cycle asks for is an `Event`; `step` runs it. -/

namespace Sys2Proof.Machine

/-- What the host drives in the coming cycle. -/
def hostNow (s : State) : HostCycle :=
  match s.hostScript with
  | [] => s.hostRest
  | c :: _ => c

/-- The host's command stream once the coming cycle's change of mind, if any, is made (R116). -/
def streamNow (s : State) : List CommandWord :=
  match (hostNow s).cmd with
  | .offer => s.cmdStream
  | .withhold => s.cmdStream
  | .restream ws => ws

/-- The word on `cmd` in the coming cycle, none when `cmd_valid` = 0 (R34). -/
def offeredWord (s : State) : Option CommandWord :=
  match (hostNow s).cmd with
  | .offer => s.cmdStream.head?
  | .withhold => none
  | .restream ws => ws.head?

/-- The host's side of the coming cycle is used up; no register of the engine changes. -/
def beginCycle (s : State) : State :=
  { s with hostScript := s.hostScript.tail, cmdStream := streamNow s }

/-- The word on offer leaves the head of the stream: `Accept()` (R8, R35). -/
def popCommand (s : State) : State := { s with cmdStream := s.cmdStream.tail }

/-- A ROUND step, in the direction OPR says (R14, R77, R78). -/
def roundCycle (s : State) : State :=
  match s.opr with
  | .enc => encryptRound s
  | .dec => decryptRound s
  | .srch => decryptRound s

/-- An EMIT step whose record the host takes (R14, R81, R91). -/
def emitCycle (s : State) : State :=
  match s.opr with
  | .enc => emitSingle s
  | .dec => emitSingle s
  | .srch => emitSearch s

/-- What one cycle asks for. -/
inductive Event where
  /-- The command `i` is accepted: run it on `s`, the word already taken off the stream. -/
  | command (i : Instr) (s : State)
  /-- No command is accepted; `s` is the state after the cycle. -/
  | quiet (s : State)
  deriving DecidableEq, Repr

/-- The cycle of an idle engine with `rst` = 0: accept the word on offer, or hold (R14, R35). -/
def idleCycle (word : Option CommandWord) (s : State) : Event :=
  match word with
  | some w => .command (decode w) (popCommand s)
  | none => .quiet s

/-- One cycle (R14). Reset wins over everything (R103); a command is accepted only in IDLE (R35); a
record is taken only in EMIT with `out_ready` = 1 (R36). -/
def cycle (s : State) : Event :=
  if (hostNow s).rst then .quiet (resetCycle (beginCycle s))
  else
    match s.phase with
    | .idle => idleCycle (offeredWord s) (beginCycle s)
    | .round => .quiet (roundCycle (beginCycle s))
    | .emit => .quiet (if (hostNow s).outReady then emitCycle (beginCycle s) else beginCycle s)

/-- The host offers the word of `w` in the coming cycle, with `rst` = 0 and the engine in IDLE; what
it was going to do comes after. -/
def offerNext (s : State) (w : CommandWord) : State :=
  { s with
    phase := .idle
    cmdStream := w :: s.cmdStream
    hostScript := ⟨false, .offer, (hostNow s).outReady⟩ :: s.hostScript }

/-- The host offers the pattern `w` in the coming cycle, if it is a command word. A pattern wider than
the port cannot be presented (R31, U4): nothing is placed, and the host does what it was going to do.
DESIGN CHOICE, safe: notes/assumptions/6.md. -/
def offerBitsNext (s : State) (w : Nat) : State :=
  match wordOfBits w with
  | .ok word => offerNext s word
  | .error _ => s

end Sys2Proof.Machine
end

