-- ==== Sys2Proof/Machine/Step.lean ====
section
/-! DEFINITION. One step of the machine is one clock cycle (rules R14, R34), and the state in which
the host offers a given word next. -/

namespace Sys2Proof.Machine

/-- One step: run the command the cycle accepts, or take the cycle's next state. One step is one
clock cycle and one step of the sequencer. DESIGN CHOICE, unsafe for a claim about time:
notes/assumptions/9.md. -/
def step (s : State) : Host.Outcome State Fault Refusal :=
  match cycle s with
  | .command i t => exec i t
  | .quiet t => .next t

/-- `s` with the table word `w` offered in the next cycle to an idle engine (R35). A command is one
word, so `nbits` is not needed (R50). How a program comes to run: notes/assumptions/4.md. A pattern
wider than the 23-bit port is not placed and the state stays as it is, because it cannot be presented
(R31, U4): DESIGN CHOICE, safe, notes/assumptions/6.md. -/
def State.withFetchWord (s : State) (_nbits w : Nat) : State := offerBitsNext s w

end Sys2Proof.Machine
end

