-- ==== Sys2Proof/WellFormed.lean ====
section
/-! DEFINITION. Well-formedness. An `Instr` is well-formed by its type: its operands have exactly the
widths of the command fields (rules R31, R45, item U4), so there is no ill-formed one. What can be
ill-formed is a command in assembler text (rule R51): its operands must lie in range. -/

namespace Sys2Proof

/-- `<block>` is an integer 0..4095 (R51). -/
def blockInRange (n : Nat) : Bool := n < 2 ^ 12

/-- `<key>` is an integer 0..511 (R51). -/
def keyInRange (n : Nat) : Bool := n < 2 ^ 9

/-- Every operand lies in its range (R51). -/
def SourceCommand.wellFormed : SourceCommand → Bool
  | .nop => true
  | .enc block key => blockInRange block && keyInRange key
  | .dec block key => blockInRange block && keyInRange key
  | .srch block => blockInRange block

end Sys2Proof
end

