-- ==== Sys2Proof/Machine/Assembler.lean ====
section
/-! DEFINITION. The assembler of rule R51: one command a line, `;` comments, numbers in decimal, `0x`
or `0b` form. It stands outside the engine; an operand out of its range is an assembler error. What
the rule leaves open (gaps, letter case of digits, which error comes first) is a DESIGN CHOICE, safe:
notes/assumptions/14.md. -/

namespace Sys2Proof.Machine

/-- What an assembler reports (R51). No step of the engine raises one. -/
inductive AsmError where
  /-- The first word of the line is none of NOP, ENC, DEC, SRCH in upper case. -/
  | unknownMnemonic
  /-- The mnemonic has another number of operands. -/
  | wrongOperandCount
  /-- An operand is no number in one of the three forms. -/
  | notANumber
  /-- An operand is outside its range. -/
  | operandOutOfRange
  deriving DecidableEq, Repr

/-- A command whose operands are in range, at the operands' own widths (R45, R51). -/
def checkSource (c : SourceCommand) : Except AsmError Instr :=
  if c.wellFormed then
    .ok (match c with
      | .nop => .nop
      | .enc block key => .enc (BitVec.ofNat 12 block) (BitVec.ofNat 9 key)
      | .dec block key => .dec (BitVec.ofNat 12 block) (BitVec.ofNat 9 key)
      | .srch block => .srch (BitVec.ofNat 12 block))
  else .error .operandOutOfRange

/-- The word a command assembles to, ignored fields zero (R49, R51). -/
def assemble (c : SourceCommand) : Except AsmError CommandWord := (checkSource c).map encode

/-- The value of a digit, none if it is no digit of the base. -/
def digitValue (base : Nat) (c : Char) : Option Nat :=
  let n := c.toNat
  let v :=
    if 48 ≤ n ∧ n ≤ 57 then n - 48
    else if 65 ≤ n ∧ n ≤ 70 then n - 55
    else if 97 ≤ n ∧ n ≤ 102 then n - 87
    else base
  if v < base then some v else none

/-- Digits, most significant first, after what `acc` holds. -/
def readDigits (base : Nat) : Nat → List Char → Option Nat
  | acc, [] => some acc
  | acc, c :: cs =>
    match digitValue base c with
    | some d => readDigits base (acc * base + d) cs
    | none => none

/-- A number in decimal, `0x` or `0b` form (R51). -/
def readNumber : List Char → Option Nat
  | [] => none
  | '0' :: 'x' :: d :: ds => readDigits 16 0 (d :: ds)
  | '0' :: 'b' :: d :: ds => readDigits 2 0 (d :: ds)
  | ds => readDigits 10 0 ds

/-- Space or tab. -/
def isGap (c : Char) : Bool := c == ' ' || c == '\t'

/-- The text without gaps at its ends. -/
def trimGaps (cs : List Char) : List Char :=
  ((cs.dropWhile isGap).reverse.dropWhile isGap).reverse

/-- The text cut at its commas, each piece trimmed. -/
def cutAtCommas (cs : List Char) : List (List Char) :=
  (cs.foldr (fun c parts =>
    match parts with
    | [] => [[c]]
    | p :: ps => if c == ',' then [] :: p :: ps else (c :: p) :: ps) [[]]).map trimGaps

/-- The operands after a mnemonic as numbers; none at all when nothing stands there. -/
def readOperands (cs : List Char) : Option (List Nat) :=
  if trimGaps cs = [] then some [] else (cutAtCommas cs).mapM readNumber

/-- The command a mnemonic and its operands name: block first, then key (R51). -/
def sourceCommand (mnemonic : List Char) (operands : List Nat) : Except AsmError SourceCommand :=
  if mnemonic = ['N', 'O', 'P'] then
    match operands with
    | [] => .ok .nop
    | _ => .error .wrongOperandCount
  else if mnemonic = ['E', 'N', 'C'] then
    match operands with
    | [block, key] => .ok (.enc block key)
    | _ => .error .wrongOperandCount
  else if mnemonic = ['D', 'E', 'C'] then
    match operands with
    | [block, key] => .ok (.dec block key)
    | _ => .error .wrongOperandCount
  else if mnemonic = ['S', 'R', 'C', 'H'] then
    match operands with
    | [block] => .ok (.srch block)
    | _ => .error .wrongOperandCount
  else .error .unknownMnemonic

/-- One line: a command, or nothing where only a comment or gaps stand (R51). -/
def readLine (line : List Char) : Except AsmError (Option SourceCommand) :=
  let text := trimGaps (line.takeWhile (fun c => c != ';'))
  if text = [] then .ok none
  else
    match readOperands (text.dropWhile (fun c => !isGap c)) with
    | none => .error .notANumber
    | some operands => (sourceCommand (text.takeWhile (fun c => !isGap c)) operands).map some

/-- One line of assembler text as a command word (R51). -/
def assembleLine (line : List Char) : Except AsmError (Option CommandWord) :=
  match readLine line with
  | .error e => .error e
  | .ok none => .ok none
  | .ok (some c) => (assemble c).map some

end Sys2Proof.Machine
end

