-- ==== Sys2Proof/Safety.lean ====
section
/-! DEFINITION. The terms claims use: what a command owes the host (rules R53, R82, R92), how many
steps it takes (rule R86), the invariant of the datapath (rules R23, R90), a command in progress with
its log (rules R23, R92), the eager host (rule R122), and states that look the same from outside
(rules R21, R22). -/

namespace Sys2Proof.Machine

/-- `n` steps of the machine, stopping at a fault or a refusal. -/
def run (n : Nat) (s : State) : Host.Outcome State Fault Refusal := Host.Core.run Sys2Proof.core n s

/-- The records a command emits, in order (R53, R82, R92). -/
def recordsOf : Instr → List RecordWord
  | .nop => []
  | .enc block key => [packRecord key (encrypt block key)]
  | .dec block key => [packRecord key (decrypt block key)]
  | .srch block => (search block).map recordOfPair

/-- The steps a command takes when the host takes its records at once (R86). -/
def stepsOf : Instr → Nat
  | .nop => 1
  | .enc _ _ => 6
  | .dec _ _ => 6
  | .srch _ => 2561

/-- The records of a whole command stream, in acceptance order (R37). -/
def recordsOfStream (ws : List CommandWord) : List RecordWord :=
  ws.flatMap (fun w => recordsOf (decode w))

/-- The steps of a whole command stream. -/
def stepsOfStream (ws : List CommandWord) : Nat := (ws.map (fun w => stepsOf (decode w))).sum

/-- The order in which a command's rounds use the subkeys (R74, R75). -/
def roundOrder : Operation → List RoundIndex
  | .enc => encryptOrder
  | .dec => decryptOrder
  | .srch => decryptOrder

/-- One round in a command's direction (R77, R78). -/
def stepOf : Operation → Subkey → HalfBlock × HalfBlock → HalfBlock × HalfBlock
  | .enc => encryptStep roundFunction
  | .dec => decryptStep roundFunction
  | .srch => decryptStep roundFunction

/-- The halves after the rounds `is` of the command in progress, from its input block. -/
def halvesAfter (s : State) (is : List RoundIndex) : HalfBlock × HalfBlock :=
  is.foldl (fun lr i => stepOf s.opr (keySchedule s.keyr i) lr) (splitBlock s.blkr)

/-- The rounds that come before the one RI names. -/
def roundsBefore (op : Operation) (ri : RoundIndex) : List RoundIndex :=
  (roundOrder op).takeWhile (fun i => i ≠ ri)

/-- The invariant of the datapath (R23, R90): between the rounds L and R are the input block after the
rounds done so far under KEYR's subkeys, and in EMIT they are the command's result and RI is the last
round's. -/
def DatapathInv (s : State) : Prop :=
  match s.phase with
  | .idle => True
  | .round => (s.l, s.r) = halvesAfter s (roundsBefore s.opr s.ri)
  | .emit => (s.l, s.r) = halvesAfter s (roundOrder s.opr) ∧ (roundOrder s.opr).getLast? = some s.ri

/-- The records the command in progress has still to hand over. -/
def pendingRecords (s : State) : List RecordWord :=
  match s.phase with
  | .idle => []
  | _ =>
    match s.opr with
    | .enc => [packRecord s.keyr (encrypt s.blkr s.keyr)]
    | .dec => [packRecord s.keyr (decrypt s.blkr s.keyr)]
    | .srch => ((search s.blkr).drop s.keyr.toNat).map recordOfPair

/-- The log there will be when the command in progress has ended. -/
def owedLog (s : State) : List RecordWord := s.outLog ++ pendingRecords s

/-- The steps to the end of the command in progress, with a host that takes records at once (R86). -/
def stepsLeft (s : State) : Nat :=
  match s.phase with
  | .idle => 0
  | .round =>
    ((roundOrder s.opr).length - (roundsBefore s.opr s.ri).length) + 1
      + (if s.opr = .srch then 5 * (511 - s.keyr.toNat) else 0)
  | .emit => 1 + (if s.opr = .srch then 5 * (511 - s.keyr.toNat) else 0)

/-- The command `i` is in progress and was accepted when OUT_LOG was `base` (R23 d and e): KEYR and
BLKR are its operands, and of a search exactly KEYR records are in the log. -/
def InProgress (base : List RecordWord) (i : Instr) (s : State) : Prop :=
  s.phase ≠ .idle ∧
    match i with
    | .nop => False
    | .enc block key => s.opr = .enc ∧ s.blkr = block ∧ s.keyr = key ∧ s.outLog = base
    | .dec block key => s.opr = .dec ∧ s.blkr = block ∧ s.keyr = key ∧ s.outLog = base
    | .srch block =>
      s.opr = .srch ∧ s.blkr = block
        ∧ s.outLog = base ++ ((search block).take s.keyr.toNat).map recordOfPair

/-- From here on the host asserts no reset, offers its commands and takes records at once. -/
def EagerHost (s : State) : Prop := s.hostScript = [] ∧ s.hostRest = .eager

/-- The two states look the same from outside (R21): they may differ in the six registers other than
PHASE while the engine is idle, and in nothing else. -/
def SameOutside (s t : State) : Prop :=
  s.phase = t.phase ∧ s.outLog = t.outLog ∧ s.cmdStream = t.cmdStream
    ∧ s.hostScript = t.hostScript ∧ s.hostRest = t.hostRest ∧ s.freeCount = t.freeCount
    ∧ (s.phase ≠ .idle → s = t)

end Sys2Proof.Machine
end

