-- ==== Sys2Proof/Certificates/Slice0/Obligations.lean ====
section
/-! DEFINITION. The statements for the provers, in the order of spec/: encoding, datapath, cipher,
reset, sequencer, commands, whole-machine rules. Each docstring names the rules it formalises. -/

open Sys2Proof Sys2Proof.Machine

/-! ### Encoding (30_encoding.md) -/

/-- R45, R47, R49: decoding an encoded command gives it back with every operand, and encoding a
decoded word gives the word with its ignored fields cleared. -/
def Obligations.DecodeAndEncodeAgree : Prop :=
  (∀ i : Instr, decode (encode i) = i) ∧
    ∀ w : CommandWord, encode (decode w) = w &&& ~~~(rowOf (decode w)).ignored

/-- R46, R47, R48: every word matches the row of the command it decodes to and no other row, and its
operands are the numbers in its key and block fields. -/
def Obligations.EachWordMatchesItsRowAlone : Prop :=
  ∀ w : CommandWord,
    (w &&& (rowOf (decode w)).mask = (rowOf (decode w)).pattern) ∧
      (∀ i : Instr, w &&& (rowOf i).mask = (rowOf i).pattern → rowOf i = rowOf (decode w)) ∧
      match decode w with
      | .nop => w.toNat / 2 ^ 21 = 0
      | .enc block key =>
        w.toNat / 2 ^ 21 = 1 ∧ key.toNat = w.toNat / 2 ^ 12 % 2 ^ 9 ∧ block.toNat = w.toNat % 2 ^ 12
      | .dec block key =>
        w.toNat / 2 ^ 21 = 2 ∧ key.toNat = w.toNat / 2 ^ 12 % 2 ^ 9 ∧ block.toNat = w.toNat % 2 ^ 12
      | .srch block => w.toNat / 2 ^ 21 = 3 ∧ block.toNat = w.toNat % 2 ^ 12

/-- 95_test_vectors.md section 3.6: words written out field by field decode to their commands. -/
def Obligations.WrittenOutWordsDecode : Prop :=
  decode 0b00000000000000000000000#23 = .nop ∧
    decode 0b00111111111111111111111#23 = .nop ∧
    decode 0b01101010101101010101010#23 = .enc 2730#12 341#9 ∧
    decode 0b10101010101010100010000#23 = .dec 1296#12 341#9 ∧
    decode 0b11000000000010100010000#23 = .srch 1296#12 ∧
    decode 0b11111111111111111111111#23 = .srch 4095#12

/-- R49, U3: "any value there gives the same behaviour as zero". A step that finds a word on offer
does what it does on the canonical word of the same command. -/
def Obligations.IgnoredFieldsDoNotReachTheEngine : Prop :=
  ∀ (s : State) (w w' : CommandWord) (ws : List CommandWord),
    w &&& ~~~(rowOf (decode w)).ignored = w' &&& ~~~(rowOf (decode w')).ignored →
    s.phase = .idle → (hostNow s).rst = false → (hostNow s).cmd = .offer →
    step { s with cmdStream := w :: ws } = step { s with cmdStream := w' :: ws }

/-! ### Datapath (40 to 43) -/

/-- R60: the four subkeys by their masks and shifts, and the corner cases. -/
def Obligations.KeyScheduleByMasksAndShifts : Prop :=
  (∀ k : MasterKey,
    (keySchedule k .one).toNat = (k.toNat >>> 1) &&& 0xFF ∧
    (keySchedule k .two).toNat = k.toNat &&& 0xFF ∧
    (keySchedule k .three).toNat = ((k.toNat &&& 0x07F) <<< 1) ||| ((k.toNat &&& 0x100) >>> 8) ∧
    (keySchedule k .four).toNat = ((k.toNat &&& 0x03F) <<< 2) ||| ((k.toNat &&& 0x180) >>> 7)) ∧
  encryptOrder.map (keySchedule 0#9) = [0#8, 0#8, 0#8, 0#8] ∧
  encryptOrder.map (keySchedule 511#9) = [255#8, 255#8, 255#8, 255#8] ∧
  encryptOrder.map (keySchedule 256#9) = [128#8, 0#8, 1#8, 2#8] ∧
  encryptOrder.map (keySchedule 1#9) = [0#8, 1#8, 2#8, 4#8] ∧
  encryptOrder.map (keySchedule 341#9) = [170#8, 85#8, 171#8, 86#8]

/-- R65 (and R61 to R64 bit by bit): K[i] is the window of the key's ring of nine bits that starts at
k[9-i]; the bit it leaves out is k[0], k[8], k[7], k[6] for i = 1 to 4 and no other; every key bit
enters at least three subkeys; different keys have different schedules. -/
def Obligations.KeyScheduleIsAWindowOfTheRing : Prop :=
  (∀ (k : MasterKey) (i : RoundIndex) (j : Nat), j < 8 →
    (keySchedule k i).getLsbD j = k.getLsbD ((j + 11 - roundNumber i) % 9)) ∧
  (∀ (i : RoundIndex) (n : Nat), n < 9 →
    ((∀ k : MasterKey, keySchedule (k ^^^ BitVec.twoPow 9 n) i = keySchedule k i) ↔
      n = (10 - roundNumber i) % 9)) ∧
  (∀ (k : MasterKey) (n : Nat), n < 9 →
    3 ≤ encryptOrder.countP
      (fun i => keySchedule (k ^^^ BitVec.twoPow 9 n) i ≠ keySchedule k i)) ∧
  (∀ k k' : MasterKey, (∀ i, keySchedule k i = keySchedule k' i) → k = k')

/-- R66: each output bit of E is the source bit the table names; the corner cases and the worked
example. -/
def Obligations.ExpansionFollowsItsWiring : Prop :=
  (∀ r : HalfBlock,
    (expand r).getLsbD 7 = r.getLsbD 5 ∧ (expand r).getLsbD 6 = r.getLsbD 4 ∧
    (expand r).getLsbD 5 = r.getLsbD 2 ∧ (expand r).getLsbD 4 = r.getLsbD 3 ∧
    (expand r).getLsbD 3 = r.getLsbD 2 ∧ (expand r).getLsbD 2 = r.getLsbD 3 ∧
    (expand r).getLsbD 1 = r.getLsbD 1 ∧ (expand r).getLsbD 0 = r.getLsbD 0) ∧
  expand 0#6 = 0#8 ∧ expand 63#6 = 255#8 ∧ expand 0b000100#6 = 40#8 ∧
  expand 0b001000#6 = 20#8 ∧ expand 0b001100#6 = 60#8 ∧ expand 0b100110#6 = 0b10101010#8

/-- R67: (a) r is read back from E(r), so E is injective; (b) the images are exactly the bytes with
e[5] = e[3] and e[4] = e[2]; (c) the two nibbles; (d) the whole table. -/
def Obligations.ExpansionImagesAndTable : Prop :=
  (∀ r : HalfBlock,
    r = (expand r).extractLsb' 6 2 ++ (expand r).extractLsb' 4 1 ++ (expand r).extractLsb' 5 1
      ++ (expand r).extractLsb' 0 2) ∧
  Function.Injective expand ∧
  (∀ e : ExpandedHalf,
    (∃ r, expand r = e) ↔ e.getLsbD 5 = e.getLsbD 3 ∧ e.getLsbD 4 = e.getLsbD 2) ∧
  (∀ r : HalfBlock,
    (expand r).extractLsb' 4 4 =
      r.extractLsb' 4 2 ++ r.extractLsb' 2 1 ++ r.extractLsb' 3 1 ∧
    (expand r).extractLsb' 0 4 =
      r.extractLsb' 2 1 ++ r.extractLsb' 3 1 ++ r.extractLsb' 0 2) ∧
  (List.range 64).map (fun n => (expand (BitVec.ofNat 6 n)).toNat) =
    [0, 1, 2, 3, 40, 41, 42, 43, 20, 21, 22, 23, 60, 61, 62, 63] ++
    [64, 65, 66, 67, 104, 105, 106, 107, 84, 85, 86, 87, 124, 125, 126, 127] ++
    [128, 129, 130, 131, 168, 169, 170, 171, 148, 149, 150, 151, 188, 189, 190, 191] ++
    [192, 193, 194, 195, 232, 233, 234, 235, 212, 213, 214, 215, 252, 253, 254, 255]

/-- R68, R69, R70: both S-boxes by the 16-entry ROM the spec lists, entry n at n, the row being n[3]
and the column n[2:0]. -/
def Obligations.SboxEntriesAsPrinted : Prop :=
  (∀ n : SBoxInput,
    (s1 n).toNat = [5, 2, 1, 6, 3, 4, 7, 0, 1, 4, 6, 2, 0, 7, 5, 3].getD n.toNat 8 ∧
    (s2 n).toNat = [4, 0, 6, 5, 7, 1, 3, 2, 5, 3, 0, 7, 6, 2, 1, 4].getD n.toNat 8) ∧
  (∀ (row : BitVec 1) (col : BitVec 3),
    s1 (row ++ col) = (s1Table.get row.toFin).get col.toFin ∧
    s2 (row ++ col) = (s2Table.get row.toFin).get col.toFin)

/-- R71 (a), (b), (c): in each row of both tables each value stands exactly once; so each value is
taken once with n[3] = 0 and once with n[3] = 1; neither S-box is injective; they differ. -/
def Obligations.SboxRowsArePermutations : Prop :=
  (∀ (row : BitVec 1) (v : SBoxOutput),
    (∃! col : BitVec 3, s1 (row ++ col) = v) ∧ (∃! col : BitVec 3, s2 (row ++ col) = v)) ∧
  ¬ Function.Injective s1 ∧ ¬ Function.Injective s2 ∧ s1 0#4 ≠ s2 0#4

/-- R72: f by the four steps on numbers: expand, XOR the subkey, look the high nibble up in S1 and the
low nibble in S2, S1's value in the upper three bits; the corner cases and the worked example. -/
def Obligations.RoundFunctionAsWritten : Prop :=
  (∀ (r : HalfBlock) (k : Subkey),
    (roundFunction r k).toNat =
      8 * [5, 2, 1, 6, 3, 4, 7, 0, 1, 4, 6, 2, 0, 7, 5, 3].getD
        (((expand r).toNat ^^^ k.toNat) / 16) 8 +
      [4, 0, 6, 5, 7, 1, 3, 2, 5, 3, 0, 7, 6, 2, 1, 4].getD
        (((expand r).toNat ^^^ k.toNat) % 16) 8) ∧
  roundFunction 0#6 0#8 = 44#6 ∧ roundFunction 63#6 255#8 = 44#6 ∧
  roundFunction 0#6 255#8 = 28#6 ∧ roundFunction 63#6 0#8 = 28#6 ∧
  roundFunction 0b100110#6 0b01100101#8 = 4#6

/-- R73 (a), (b), (c): f depends on its operands only through E(r) ^ k; its upper three bits only on
r[5:2] and k[7:4], its lower three only on r[3:0] and k[3:0]; under no subkey is it one-to-one. -/
def Obligations.RoundFunctionDependences : Prop :=
  (∀ (r r' : HalfBlock) (k k' : Subkey),
    expand r ^^^ k = expand r' ^^^ k' → roundFunction r k = roundFunction r' k') ∧
  (∀ (r r' : HalfBlock) (k k' : Subkey),
    r.extractLsb' 2 4 = r'.extractLsb' 2 4 → k.extractLsb' 4 4 = k'.extractLsb' 4 4 →
    (roundFunction r k).extractLsb' 3 3 = (roundFunction r' k').extractLsb' 3 3) ∧
  (∀ (r r' : HalfBlock) (k k' : Subkey),
    r.extractLsb' 0 4 = r'.extractLsb' 0 4 → k.extractLsb' 0 4 = k'.extractLsb' 0 4 →
    (roundFunction r k).extractLsb' 0 3 = (roundFunction r' k').extractLsb' 0 3) ∧
  (∀ k : Subkey, ¬ Function.Injective (fun r => roundFunction r k)) ∧
  roundFunction 0b000000#6 0#8 = 44#6 ∧ roundFunction 0b001100#6 0#8 = 54#6 ∧
  roundFunction 0b010000#6 0#8 = 28#6 ∧ roundFunction 0b111111#6 0#8 = 28#6

/-! ### The pure functions (44, 45) -/

/-- R74, R75: encrypt and decrypt as four steps on the pair of halves, each from the old pair, with no
swap at the end; the worked examples with their traces; and C2: the encrypt step with the subkeys
reversed is not decrypt. -/
def Obligations.EncryptAndDecryptAsWritten : Prop :=
  (∀ (p : Block) (k : MasterKey) (l1 r1 l2 r2 l3 r3 l4 r4 : HalfBlock),
    l1 = rightHalf p → r1 = roundFunction (rightHalf p) (keySchedule k .one) ^^^ leftHalf p →
    l2 = r1 → r2 = roundFunction r1 (keySchedule k .two) ^^^ l1 →
    l3 = r2 → r3 = roundFunction r2 (keySchedule k .three) ^^^ l2 →
    l4 = r3 → r4 = roundFunction r3 (keySchedule k .four) ^^^ l3 →
    encrypt p k = l4 ++ r4) ∧
  (∀ (c : Block) (k : MasterKey) (l4 r4 l3 r3 l2 r2 l1 r1 : HalfBlock),
    r4 = leftHalf c → l4 = roundFunction (leftHalf c) (keySchedule k .four) ^^^ rightHalf c →
    r3 = l4 → l3 = roundFunction l4 (keySchedule k .three) ^^^ r4 →
    r2 = l3 → l2 = roundFunction l3 (keySchedule k .two) ^^^ r3 →
    r1 = l2 → l1 = roundFunction l2 (keySchedule k .one) ^^^ r2 →
    decrypt c k = l1 ++ r1) ∧
  encrypt 2730#12 341#9 = 1296#12 ∧ decrypt 1296#12 341#9 = 2730#12 ∧
  encryptOrder.scanl (fun lr i => encryptStep roundFunction (keySchedule 341#9 i) lr)
      (splitBlock 2730#12) =
    [(0b101010#6, 0b101010#6), (0b101010#6, 0b011100#6), (0b011100#6, 0b100001#6),
      (0b100001#6, 0b010100#6), (0b010100#6, 0b010000#6)] ∧
  decryptOrder.scanl (fun lr i => decryptStep roundFunction (keySchedule 341#9 i) lr)
      (splitBlock 1296#12) =
    [(0b010100#6, 0b010000#6), (0b100001#6, 0b010100#6), (0b011100#6, 0b100001#6),
      (0b101010#6, 0b011100#6), (0b101010#6, 0b101010#6)] ∧
  joinPair (decryptOrder.foldl (fun lr i => encryptStep roundFunction (keySchedule 341#9 i) lr)
      (splitBlock 1296#12)) = 831#12

/-- R83: the round trip, both ways, for every block and key, and for any round function and subkeys
whatever; and in command terms, an ENC followed by a DEC of its result hands the block back. That last
clause is stated of a run of 6 + 6 steps (R86) with an eager host, which is the model's form of the host
(log entry 4) and of a step (log entry 9). -/
def Obligations.RoundTripForEveryBlockAndKey : Prop :=
  (∀ (f : HalfBlock → Subkey → HalfBlock) (ks : RoundIndex → Subkey) (b : Block),
    decryptWith f ks (encryptWith f ks b) = b ∧ encryptWith f ks (decryptWith f ks b) = b) ∧
  (∀ (b : Block) (k : MasterKey), decrypt (encrypt b k) k = b ∧ encrypt (decrypt b k) k = b) ∧
  (∀ (s : State) (b : Block) (k : MasterKey),
    s.phase = .idle → EagerHost s →
    s.cmdStream = [encode (.enc b k), encode (.dec (encrypt b k) k)] →
    ∃ t, run 12 s = .next t ∧
      t.outLog = s.outLog ++ [packRecord k (encrypt b k), packRecord k b])

/-- R84: for a fixed key encrypt and decrypt are permutations of the 4096 blocks. -/
def Obligations.EncryptPermutesTheBlocks : Prop :=
  ∀ k : MasterKey, Function.Bijective (fun b => encrypt b k) ∧ Function.Bijective (fun b => decrypt b k)

/-- R87, R88, R93 (a), (d): the search has exactly 512 pairs, their keys are 0, 1, ..., 511 in that
order, each once; each pair holds the decryption under its key; and the plaintext stands beside the
key it was encrypted under. -/
def Obligations.SearchTriesEveryKeyOnceInOrder : Prop :=
  ∀ c : Block,
    (search c).length = 512 ∧
    (∀ n : Nat, n < 512 → (search c)[n]? = some (BitVec.ofNat 9 n, decrypt c (BitVec.ofNat 9 n))) ∧
    ((search c).map (fun p => p.1.toNat)) = List.range 512 ∧
    ((search c).map (fun p => p.1)).Nodup ∧
    (∀ k : MasterKey, (k, decrypt c k) ∈ search c) ∧
    (∀ (p : Block) (k : MasterKey), c = encrypt p k → (k, p) ∈ search c)

/-- R53, R48: the number of records a command emits depends on its opcode alone. When an idle engine
with an eager host (log entry 4) has a word at the head of its stream, then after the command's steps
(R86; a step is a step of the sequencer, log entry 9) the command has ended and the log has grown by the
command's records, as many as its row of the opcode table says: 0 for op 00, 1 for 01 and 10, 512 for
11. -/
def Obligations.RecordsPerCommand : Prop :=
  ∀ (s : State) (w : CommandWord) (ws : List CommandWord),
    s.phase = .idle → EagerHost s → s.cmdStream = w :: ws →
    ∃ t, run (stepsOf (decode w)) s = .next t ∧ t.phase = .idle ∧ t.cmdStream = ws ∧
      t.outLog = s.outLog ++ recordsOf (decode w) ∧
      t.outLog.length = s.outLog.length + (rowOf (decode w)).records ∧
      (opField w = 0b00#2 → t.outLog.length = s.outLog.length) ∧
      (opField w = 0b01#2 → t.outLog.length = s.outLog.length + 1) ∧
      (opField w = 0b10#2 → t.outLog.length = s.outLog.length + 1) ∧
      (opField w = 0b11#2 → t.outLog.length = s.outLog.length + 512)

/-! ### Reset (10 section 11, 70) -/

/-- R24: after reset PHASE is IDLE and OUT_LOG is empty, so `busy` = 0, `out_valid` = 0, `cmd_ready`
= 1 once `rst` is 0, and the `out` port has no value (the model's reading of R24, log entry 5). The values of the six other registers are the
model's choice (log entry 1) and no statement is made of them. -/
def Obligations.ResetStateIsIdleAndQuiet : Prop :=
  State.reset.phase = .idle ∧ State.reset.outLog = [] ∧ busy State.reset = false ∧
    outValid State.reset = false ∧ cmdReady State.reset false = true ∧
    cmdReady State.reset true = false ∧ outPort State.reset = none

/-- R113, R114, R103 (1): from any state a cycle with `rst` = 1 leaves the engine in IDLE, quiet and
ready; no command is accepted, no record is handed over even if `out_ready` = 1, and what the host
still offers stays on offer. That one log is kept is the choice R113 leaves the model (log entry 3);
the stream and the script are the model's form of the host (log entry 4). -/
def Obligations.ResetCycleAbandonsTheCommand : Prop :=
  ∀ s : State, (hostNow s).rst = true →
    ∃ t, step s = .next t ∧ t.phase = .idle ∧ t.outLog = s.outLog ∧ t.cmdStream = streamNow s ∧
      t.hostScript = s.hostScript.tail ∧ t.hostRest = s.hostRest ∧
      busy t = false ∧ outValid t = false ∧ cmdReady t false = true ∧ cmdReady s true = false

/-! ### The channels and the status outputs (10 section 4, 20) -/

/-- R35: in a cycle with `rst` = 0, an idle engine and a word on offer, the step is the command the
word decodes to, run on the state whose stream has lost that word and whose cycle is used up. -/
def Obligations.StepRunsTheAcceptedCommand : Prop :=
  ∀ (s : State) (w : CommandWord),
    s.phase = .idle → (hostNow s).rst = false → offeredWord s = some w →
    step s = exec (decode w)
      { s with cmdStream := (streamNow s).tail, hostScript := s.hostScript.tail }

/-- R14 row 1, R112: an idle engine to which no command is offered holds; the cycle passes. -/
def Obligations.IdleEngineHoldsWithoutACommand : Prop :=
  ∀ s : State, s.phase = .idle → (hostNow s).rst = false → offeredWord s = none →
    step s = .next { s with cmdStream := streamNow s, hostScript := s.hostScript.tail }

/-- R35, R103 (2), R118: while the engine is busy an offered command waits: running it changes
nothing (the model's reading, log entry 13), and a step of the engine leaves it on the stream. -/
def Obligations.BusyEngineLetsCommandsWait : Prop :=
  (∀ (i : Instr) (s : State), s.phase ≠ .idle → exec i s = .next s) ∧
    ∀ s : State, s.phase ≠ .idle → ∃ t, step s = .next t ∧ t.cmdStream = streamNow s

/-- R35, R41, R116, U11: what a step does to the host's side. The script loses the cycle, the eager
tail stays, the stream is what the host last made of it, less its head exactly when `cmd_ready` = 1
and a word is on offer; only a reset cycle moves the free-value counter. The script, the eager tail and
the counter are the model's own form of the environment (log entries 2 and 4). -/
def Obligations.StepFrameOfTheHostSide : Prop :=
  ∀ s t : State, step s = .next t →
    t.hostScript = s.hostScript.tail ∧ t.hostRest = s.hostRest ∧
      t.cmdStream =
        (if cmdReady s (hostNow s).rst = true ∧ offeredWord s ≠ none then (streamNow s).tail
          else streamNow s) ∧
      t.freeCount = (if (hostNow s).rst then s.freeCount + 1 else s.freeCount)

/-- R16: the three status outputs as functions of PHASE and `rst`. -/
def Obligations.StatusOutputsFollowThePhase : Prop :=
  ∀ s : State,
    (busy s = true ↔ s.phase ≠ .idle) ∧ (outValid s = true ↔ s.phase = .emit) ∧
      (∀ rst : Bool, cmdReady s rst = true ↔ s.phase = .idle ∧ rst = false) ∧
      (outValid s = true → busy s = true) ∧
      (∀ rst : Bool, cmdReady s rst = true → busy s = false)

/-- R36, R52, R112: in EMIT the port carries KEYR, L, R in bits 20:12, 11:6, 5:0; a cycle in which the
host does not take the record changes no register, no log and not the port. -/
def Obligations.RecordIsHeldUntilTaken : Prop :=
  ∀ s : State, s.phase = .emit →
    (∃ w, outPort s = some w ∧ w.extractLsb' 12 9 = s.keyr ∧ w.extractLsb' 6 6 = s.l ∧
      w.extractLsb' 0 6 = s.r ∧ recordKey w = s.keyr ∧ recordBlock w = joinHalves s.l s.r) ∧
    ((hostNow s).rst = false → (hostNow s).outReady = false →
      ∃ t, step s = .next t ∧
        t = { s with cmdStream := streamNow s, hostScript := s.hostScript.tail } ∧
        outPort t = outPort s ∧ busy t = true)

/-- R39, R35: the word is captured whole at acceptance. While a command is in progress, another
command stream, or another use of `cmd` and `cmd_valid` in the cycle, changes nothing of the step's
result but the stream itself. -/
def Obligations.CommandInProgressIgnoresTheCommandPort : Prop :=
  ∀ s : State, s.phase ≠ .idle →
    (∀ ws : List CommandWord, ∃ t t', step s = .next t ∧ step { s with cmdStream := ws } = .next t' ∧
      t' = { t with cmdStream := t'.cmdStream }) ∧
    (∀ (c : HostCycle) (cs : List HostCycle) (d : CommandDrive), s.hostScript = c :: cs →
      ∃ t t', step s = .next t ∧
        step { s with hostScript := { c with cmd := d } :: cs } = .next t' ∧
        t' = { t with cmdStream := t'.cmdStream })

/-- R116, U11: a host that changes the word while it waits gets the word it presents last; one that
drops `cmd_valid` gets none. The ways the host can do so are the model's (log entry 4). -/
def Obligations.LastPresentedCommandIsAccepted : Prop :=
  ∀ s : State, s.phase = .idle → (hostNow s).rst = false →
    (∀ (w : CommandWord) (ws : List CommandWord), (hostNow s).cmd = .restream (w :: ws) →
      step s = exec (decode w) { s with cmdStream := ws, hostScript := s.hostScript.tail }) ∧
    ((hostNow s).cmd = .restream [] →
      step s = .next { s with cmdStream := [], hostScript := s.hostScript.tail }) ∧
    ((hostNow s).cmd = .withhold → step s = .next { s with hostScript := s.hostScript.tail })

/-! ### The commands at acceptance (44, 45) -/

/-- R76: NOP writes no register and emits nothing, in every state (while the engine is busy because an
offered command waits, log entry 13). -/
def Obligations.NopWritesNothing : Prop :=
  ∀ s : State, exec .nop s = .next s

/-- R79: ENC loads OPR, KEYR, BLKR, L, R, sets RI = 1 and PHASE = ROUND, and leaves the log, the
host's side and the free-value counter as they were. -/
def Obligations.EncLoadsItsRegisters : Prop :=
  ∀ (s : State) (block : Block) (key : MasterKey), s.phase = .idle →
    ∃ t, exec (.enc block key) s = .next t ∧
      t.opr = .enc ∧ t.keyr = key ∧ t.blkr = block ∧ t.l = block.extractLsb' 6 6 ∧
      t.r = block.extractLsb' 0 6 ∧ t.ri = .one ∧ t.phase = .round ∧ busy t = true ∧
      t.outLog = s.outLog ∧ t.cmdStream = s.cmdStream ∧ t.hostScript = s.hostScript ∧
      t.hostRest = s.hostRest ∧ t.freeCount = s.freeCount

/-- R80: DEC loads the same registers with OPR = DEC and RI = 4, and leaves the rest. -/
def Obligations.DecLoadsItsRegisters : Prop :=
  ∀ (s : State) (block : Block) (key : MasterKey), s.phase = .idle →
    ∃ t, exec (.dec block key) s = .next t ∧
      t.opr = .dec ∧ t.keyr = key ∧ t.blkr = block ∧ t.l = block.extractLsb' 6 6 ∧
      t.r = block.extractLsb' 0 6 ∧ t.ri = .four ∧ t.phase = .round ∧ busy t = true ∧
      t.outLog = s.outLog ∧ t.cmdStream = s.cmdStream ∧ t.hostScript = s.hostScript ∧
      t.hostRest = s.hostRest ∧ t.freeCount = s.freeCount

/-- R89: SRCH loads the same registers with OPR = SRCH, KEYR = 0 and RI = 4, and leaves the rest. -/
def Obligations.SrchLoadsItsRegisters : Prop :=
  ∀ (s : State) (block : Block), s.phase = .idle →
    ∃ t, exec (.srch block) s = .next t ∧
      t.opr = .srch ∧ t.keyr = 0#9 ∧ t.blkr = block ∧ t.l = block.extractLsb' 6 6 ∧
      t.r = block.extractLsb' 0 6 ∧ t.ri = .four ∧ t.phase = .round ∧ busy t = true ∧
      t.outLog = s.outLog ∧ t.cmdStream = s.cmdStream ∧ t.hostScript = s.hostScript ∧
      t.hostRest = s.hostRest ∧ t.freeCount = s.freeCount

/-! ### The steps of the sequencer (10 section 3, 44, 45) -/

/-- R14: every row of the transition table, as the position after one cycle with `rst` = 0. -/
def Obligations.StepFollowsTheTransitionTable : Prop :=
  ∀ s : State, (hostNow s).rst = false →
    ∃ t, step s = .next t ∧
      (s.phase = .idle → offeredWord s = none → t.phase = .idle) ∧
      (∀ w, s.phase = .idle → offeredWord s = some w → opField w = 0b00#2 → t.phase = .idle) ∧
      (∀ w, s.phase = .idle → offeredWord s = some w → opField w = 0b01#2 →
        t.phase = .round ∧ t.opr = .enc ∧ roundNumber t.ri = 1) ∧
      (∀ w, s.phase = .idle → offeredWord s = some w → opField w = 0b10#2 →
        t.phase = .round ∧ t.opr = .dec ∧ roundNumber t.ri = 4) ∧
      (∀ w, s.phase = .idle → offeredWord s = some w → opField w = 0b11#2 →
        t.phase = .round ∧ t.opr = .srch ∧ roundNumber t.ri = 4 ∧ t.keyr = 0#9) ∧
      (s.phase = .round → s.opr = .enc → roundNumber s.ri < 4 →
        t.phase = .round ∧ roundNumber t.ri = roundNumber s.ri + 1) ∧
      (s.phase = .round → s.opr = .enc → roundNumber s.ri = 4 → t.phase = .emit) ∧
      (s.phase = .round → s.opr ≠ .enc → roundNumber s.ri > 1 →
        t.phase = .round ∧ roundNumber t.ri + 1 = roundNumber s.ri) ∧
      (s.phase = .round → s.opr ≠ .enc → roundNumber s.ri = 1 → t.phase = .emit) ∧
      (s.phase = .emit → (hostNow s).outReady = false → t.phase = .emit) ∧
      (s.phase = .emit → (hostNow s).outReady = true → s.opr ≠ .srch → t.phase = .idle) ∧
      (s.phase = .emit → (hostNow s).outReady = true → s.opr = .srch → s.keyr.toNat < 511 →
        t.phase = .round ∧ roundNumber t.ri = 4 ∧ t.keyr.toNat = s.keyr.toNat + 1) ∧
      (s.phase = .emit → (hostNow s).outReady = true → s.opr = .srch → s.keyr.toNat = 511 →
        t.phase = .idle)

/-- R77: the encrypt round step. Both halves are written from the old halves; RI moves up or PHASE
becomes EMIT with RI kept; nothing else changes but the passing of the cycle. -/
def Obligations.EncryptRoundStep : Prop :=
  (∀ s : State, s.phase = .round → s.opr = .enc → (hostNow s).rst = false →
    ∃ t, step s = .next t ∧
      t.l = s.r ∧ t.r = roundFunction s.r (keySchedule s.keyr s.ri) ^^^ s.l ∧
      (s.ri = .four → t.phase = .emit ∧ t.ri = s.ri) ∧
      (s.ri ≠ .four → t.phase = .round ∧ roundNumber t.ri = roundNumber s.ri + 1) ∧
      t.opr = s.opr ∧ t.keyr = s.keyr ∧ t.blkr = s.blkr ∧ t.outLog = s.outLog) ∧
  encryptStep roundFunction (keySchedule 341#9 .one) (0b101010#6, 0b101010#6) =
    (0b101010#6, 0b011100#6)

/-- R78: the decrypt round step, for DEC and SRCH, the exact inverse of R77's under the same subkey. -/
def Obligations.DecryptRoundStep : Prop :=
  (∀ s : State, s.phase = .round → s.opr ≠ .enc → (hostNow s).rst = false →
    ∃ t, step s = .next t ∧
      t.l = roundFunction s.l (keySchedule s.keyr s.ri) ^^^ s.r ∧ t.r = s.l ∧
      (s.ri = .one → t.phase = .emit ∧ t.ri = s.ri) ∧
      (s.ri ≠ .one → t.phase = .round ∧ roundNumber t.ri + 1 = roundNumber s.ri) ∧
      t.opr = s.opr ∧ t.keyr = s.keyr ∧ t.blkr = s.blkr ∧ t.outLog = s.outLog) ∧
  (∀ (f : HalfBlock → Subkey → HalfBlock) (k : Subkey) (lr : HalfBlock × HalfBlock),
    decryptStep f k (encryptStep f k lr) = lr ∧ encryptStep f k (decryptStep f k lr) = lr) ∧
  decryptStep roundFunction (keySchedule 341#9 .four) (0b010100#6, 0b010000#6) =
    (0b100001#6, 0b010100#6)

/-- R81: the emit step of ENC and DEC appends KEYR ‖ L ‖ R and goes to IDLE; every other register
keeps its value. -/
def Obligations.EmitStepOfEncAndDec : Prop :=
  ∀ s : State, s.phase = .emit → s.opr ≠ .srch → (hostNow s).rst = false →
    (hostNow s).outReady = true →
    ∃ t, step s = .next t ∧ t.outLog = s.outLog ++ [s.keyr ++ (s.l ++ s.r)] ∧ t.phase = .idle ∧
      t.l = s.l ∧ t.r = s.r ∧ t.keyr = s.keyr ∧ t.blkr = s.blkr ∧ t.opr = s.opr ∧ t.ri = s.ri

/-- R91: the emit-and-advance step of SRCH appends the record of the old KEYR; at KEYR = 511 it goes
to IDLE with KEYR kept, before that it moves KEYR up by one and reloads L, R, RI for the next trial. -/
def Obligations.EmitAndAdvanceStepOfSrch : Prop :=
  ∀ s : State, s.phase = .emit → s.opr = .srch → (hostNow s).rst = false →
    (hostNow s).outReady = true →
    ∃ t, step s = .next t ∧ t.outLog = s.outLog ++ [s.keyr ++ (s.l ++ s.r)] ∧
      t.blkr = s.blkr ∧ t.opr = s.opr ∧
      (s.keyr = 511#9 →
        t.phase = .idle ∧ t.keyr = s.keyr ∧ t.l = s.l ∧ t.r = s.r ∧ t.ri = s.ri) ∧
      (s.keyr ≠ 511#9 →
        t.phase = .round ∧ t.keyr.toNat = s.keyr.toNat + 1 ∧ t.l = s.blkr.extractLsb' 6 6 ∧
          t.r = s.blkr.extractLsb' 0 6 ∧ t.ri = .four)

/-! ### Whole-machine rules -/

/-- R100, R112: every step and every command answers a next state; never a fault, never a refusal. -/
def Obligations.EveryStepAnswersANextState : Prop :=
  (∀ s : State, ∃ t, step s = .next t) ∧
    (∀ (i : Instr) (s : State), ∃ t, exec i s = .next t) ∧
    (∀ (n : Nat) (s : State), ∃ t, run n s = .next t)

/-- R20, R36, R103 (4): OUT_LOG grows by the word on the `out` port exactly when `out_valid` = 1,
`out_ready` = 1 and `rst` = 0, and does not change otherwise. That it does not change in a cycle with
`rst` = 1 is the model's choice of one log across resets, which R113 leaves open (log entry 3). -/
def Obligations.LogGrowsOnlyByTakenRecords : Prop :=
  ∀ s : State, ∃ t, step s = .next t ∧
    (outValid s = true ∧ (hostNow s).outReady = true ∧ (hostNow s).rst = false →
      ∃ w, outPort s = some w ∧ t.outLog = s.outLog ++ [w]) ∧
    (¬ (outValid s = true ∧ (hostNow s).outReady = true ∧ (hostNow s).rst = false) →
      t.outLog = s.outLog)

/-- R36, R112, R118, U10: a host that never takes the record holds the engine in EMIT for ever, with
the record on the port and not in the log. Its pins are the model's form of such a host (log entry 4). -/
def Obligations.UntakenRecordHoldsTheEngine : Prop :=
  ∀ (n : Nat) (s : State), s.phase = .emit → s.hostScript = [] → s.hostRest.rst = false →
    s.hostRest.outReady = false →
    ∃ t, run n s = .next t ∧ t.phase = .emit ∧ t.outLog = s.outLog ∧ outPort t = outPort s ∧
      busy t = true

/-- R12, R13, R15: while a command is in progress and no reset comes, OPR and BLKR do not change, and
KEYR changes only in a search, by one upwards without wrapping, when a record other than key 511's is
taken. -/
def Obligations.KeyAndBlockHoldDuringACommand : Prop :=
  ∀ s : State, s.phase ≠ .idle → (hostNow s).rst = false →
    ∃ t, step s = .next t ∧ t.opr = s.opr ∧ t.blkr = s.blkr ∧
      (s.opr ≠ .srch → t.keyr = s.keyr) ∧
      (t.keyr ≠ s.keyr →
        s.opr = .srch ∧ s.phase = .emit ∧ (hostNow s).outReady = true ∧
          t.keyr.toNat = s.keyr.toNat + 1)

/-- R23, R90: the state right after reset meets the datapath invariant. -/
def Obligations.ResetMeetsTheDatapathInvariant : Prop :=
  DatapathInv State.reset

/-- R23, R90: every step keeps the datapath invariant: between rounds L and R are the input block
after the rounds done so far, and in EMIT they are the result: encrypt(BLKR, KEYR) for ENC,
decrypt(BLKR, KEYR) for DEC and SRCH. -/
def Obligations.EveryStepKeepsTheDatapathInvariant : Prop :=
  (∀ s t : State, DatapathInv s → step s = .next t → DatapathInv t) ∧
    ∀ s : State, DatapathInv s → s.phase = .emit →
      (s.opr = .enc → s.l ++ s.r = encrypt s.blkr s.keyr) ∧
        (s.opr ≠ .enc → s.l ++ s.r = decrypt s.blkr s.keyr)

/-- R23 (d), (e), R92, R114: acceptance of ENC, DEC or SRCH puts a command in progress over the log so far; every cycle
without reset keeps it in progress, with exactly KEYR records of a search in the log, or ends it with
all its records in the log; a reset at any moment leaves the first records of the command and no
others. For ENC and DEC the one record comes with the end (R82). That a reset leaves the log as it was,
`base` included, is the model's choice of one log across resets, which R113 leaves open (log entry 3). -/
def Obligations.CommandInProgressKeepsItsLog : Prop :=
  (∀ (i : Instr) (s t : State), i ≠ .nop → s.phase = .idle → exec i s = .next t →
    InProgress s.outLog i t ∧ DatapathInv t) ∧
  (∀ (base : List RecordWord) (i : Instr) (s t : State),
    InProgress base i s → DatapathInv s → (hostNow s).rst = false → step s = .next t →
      InProgress base i t ∨ (t.phase = .idle ∧ t.outLog = base ++ recordsOf i)) ∧
  (∀ (base : List RecordWord) (i : Instr) (s t : State),
    InProgress base i s → (hostNow s).rst = true → step s = .next t →
      t.phase = .idle ∧ ∃ j, j ≤ 512 ∧ t.outLog = base ++ (recordsOf i).take j)

/-- R36, R37 (2, 4): no record is dropped, repeated or invented. Whatever the host does short of a
reset, one cycle leaves unchanged the log as it will stand when the command in progress and all the
commands still on the stream have run. -/
def Obligations.NoRecordLostOrRepeated : Prop :=
  ∀ s t : State, DatapathInv s → (hostNow s).rst = false → step s = .next t →
    owedLog t ++ recordsOfStream t.cmdStream = owedLog s ++ recordsOfStream (streamNow s)

/-- R79, R82, R86: ENC accepted by an idle engine with a host that takes its record: `busy` for five
steps, and after the sixth exactly one record, the key with encrypt(block, key), and the engine idle.
A step here is a step of the sequencer, as R86 counts (log entry 9), and the eager host is the model's
form of such a host (log entry 4). -/
def Obligations.EncRunsInSixSteps : Prop :=
  ∀ (s : State) (block : Block) (key : MasterKey) (ws : List CommandWord),
    s.phase = .idle → EagerHost s → s.cmdStream = encode (.enc block key) :: ws →
    (∃ t, run 6 s = .next t ∧ t.outLog = s.outLog ++ [packRecord key (encrypt block key)] ∧
      t.phase = .idle ∧ t.cmdStream = ws) ∧
    ∀ n, 1 ≤ n → n ≤ 5 → ∃ t, run n s = .next t ∧ busy t = true ∧ t.outLog = s.outLog

/-- R80, R82, R86: the same for DEC, with decrypt(block, key), the steps (log entry 9) and the eager host
(log entry 4) being the model's in the same way. -/
def Obligations.DecRunsInSixSteps : Prop :=
  ∀ (s : State) (block : Block) (key : MasterKey) (ws : List CommandWord),
    s.phase = .idle → EagerHost s → s.cmdStream = encode (.dec block key) :: ws →
    (∃ t, run 6 s = .next t ∧ t.outLog = s.outLog ++ [packRecord key (decrypt block key)] ∧
      t.phase = .idle ∧ t.cmdStream = ws) ∧
    ∀ n, 1 ≤ n → n ≤ 5 → ∃ t, run n s = .next t ∧ busy t = true ∧ t.outLog = s.outLog

/-- R86, R88, R89, R92: SRCH takes 2561 steps and emits the 512 records of search(block) in order; it
is busy at every step before the last. Steps are the sequencer's, as R86 counts (log entry 9); the host is the eager one, the model's form of
one that takes every record at once (log entry 4). -/
def Obligations.SrchRunsIn2561Steps : Prop :=
  ∀ (s : State) (block : Block) (ws : List CommandWord),
    s.phase = .idle → EagerHost s → s.cmdStream = encode (.srch block) :: ws →
    (∃ t, run 2561 s = .next t ∧ t.outLog = s.outLog ++ (search block).map recordOfPair ∧
      t.phase = .idle ∧ t.cmdStream = ws) ∧
    ∀ n, 1 ≤ n → n ≤ 2560 → ∃ t, run n s = .next t ∧ busy t = true

/-- R37, R86, R123, R126: from any state that meets the datapath invariant, a host that offers its
commands and takes its records at once sees the command in progress and then every command of its
stream run to the end, in as many steps as R86 counts, and the run's result is the log so far, what
the command in progress still owed, and the records of the stream's commands in order. The eager host
is the model's form of R123's premises (log entry 4), the steps are the sequencer's (log entry 9). -/
def Obligations.EagerHostRunsEveryCommand : Prop :=
  ∀ s : State, DatapathInv s → EagerHost s →
    ∃ t, run (stepsLeft s + stepsOfStream s.cmdStream) s = .next t ∧ t.phase = .idle ∧
      t.cmdStream = [] ∧ t.outLog = owedLog s ++ recordsOfStream s.cmdStream

/-- R21, R22: no carry-over. Two states that look the same from outside, whatever their registers hold
while idle, look the same after any number of steps; in particular their logs agree. -/
def Obligations.NoCarryOverBetweenCommands : Prop :=
  ∀ (n : Nat) (s t : State), SameOutside s t →
    ∃ s' t', run n s = .next s' ∧ run n t = .next t' ∧ SameOutside s' t' ∧
      s'.outLog = t'.outLog ∧ busy s' = busy t' ∧ outPort s' = outPort t'

/-! ### The assembler and the host's placement of a word -/

/-- R51: operands in range assemble to a word that decodes to the command with those operands, ignored
fields zero; an operand out of range is an assembler error; and the spec's examples. -/
def Obligations.AssembledWordsDecodeBack : Prop :=
  (∀ block key : Nat, block < 4096 → key < 512 →
    (∃ w, assemble (.enc block key) = .ok w ∧
      decode w = .enc (BitVec.ofNat 12 block) (BitVec.ofNat 9 key)) ∧
    (∃ w, assemble (.dec block key) = .ok w ∧
      decode w = .dec (BitVec.ofNat 12 block) (BitVec.ofNat 9 key)) ∧
    (∃ w, assemble (.srch block) = .ok w ∧ w.toNat = 0x600000 + block)) ∧
  (∀ block key : Nat, 4096 ≤ block ∨ 512 ≤ key →
    assemble (.enc block key) = .error .operandOutOfRange ∧
      assemble (.dec block key) = .error .operandOutOfRange) ∧
  (∀ block : Nat, 4096 ≤ block → assemble (.srch block) = .error .operandOutOfRange) ∧
  assemble .nop = .ok 0x000000#23 ∧ assemble (.enc 2730 341) = .ok 0x355AAA#23 ∧
  assemble (.dec 1296 341) = .ok 0x555510#23 ∧ assemble (.srch 0) = .ok 0x600000#23

/-- Log entries 4 and 6 (the model's own placement, not a rule): a step from the state in which a table
word is placed next is the command that word decodes to, on the state as it was with PHASE = IDLE; a
pattern the decoder refuses, wider than the port, is not placed and leaves the state as it was. -/
def Obligations.PlacedWordRunsNext : Prop :=
  ∀ (s : State) (nbits w : Nat),
    (∀ i : Instr, decodeTableWord nbits w = some i →
      step (s.withFetchWord nbits w) = exec i { s with phase := .idle }) ∧
    (decodeTableWord nbits w = none → s.withFetchWord nbits w = s)
end

