-- ==== Sys2Proof/Laws/State.lean ====
section
/-! SUPPORT. One lemma per field per update of the state, so that no proof unfolds a record update. -/

namespace Sys2Proof.Machine

/-! `resetCycle` -/

@[simp] theorem resetCycle_phase (s : State) :
    (resetCycle s).phase = .idle := rfl

@[simp] theorem resetCycle_opr (s : State) :
    (resetCycle s).opr = Config.freeOpr s.freeCount s.opr := rfl

@[simp] theorem resetCycle_ri (s : State) :
    (resetCycle s).ri = Config.freeRi s.freeCount s.ri := rfl

@[simp] theorem resetCycle_keyr (s : State) :
    (resetCycle s).keyr = Config.freeKeyr s.freeCount s.keyr := rfl

@[simp] theorem resetCycle_blkr (s : State) :
    (resetCycle s).blkr = Config.freeBlkr s.freeCount s.blkr := rfl

@[simp] theorem resetCycle_l (s : State) :
    (resetCycle s).l = Config.freeL s.freeCount s.l := rfl

@[simp] theorem resetCycle_r (s : State) :
    (resetCycle s).r = Config.freeR s.freeCount s.r := rfl

@[simp] theorem resetCycle_outLog (s : State) :
    (resetCycle s).outLog = s.outLog := rfl

@[simp] theorem resetCycle_cmdStream (s : State) :
    (resetCycle s).cmdStream = s.cmdStream := rfl

@[simp] theorem resetCycle_hostScript (s : State) :
    (resetCycle s).hostScript = s.hostScript := rfl

@[simp] theorem resetCycle_hostRest (s : State) :
    (resetCycle s).hostRest = s.hostRest := rfl

@[simp] theorem resetCycle_freeCount (s : State) :
    (resetCycle s).freeCount = s.freeCount + 1 := rfl

/-! `startRounds` -/

@[simp] theorem startRounds_phase (s : State) (b : Block) (i : RoundIndex) :
    (startRounds s b i).phase = .round := rfl

@[simp] theorem startRounds_opr (s : State) (b : Block) (i : RoundIndex) :
    (startRounds s b i).opr = s.opr := rfl

@[simp] theorem startRounds_ri (s : State) (b : Block) (i : RoundIndex) :
    (startRounds s b i).ri = i := rfl

@[simp] theorem startRounds_keyr (s : State) (b : Block) (i : RoundIndex) :
    (startRounds s b i).keyr = s.keyr := rfl

@[simp] theorem startRounds_blkr (s : State) (b : Block) (i : RoundIndex) :
    (startRounds s b i).blkr = s.blkr := rfl

@[simp] theorem startRounds_l (s : State) (b : Block) (i : RoundIndex) :
    (startRounds s b i).l = leftHalf b := rfl

@[simp] theorem startRounds_r (s : State) (b : Block) (i : RoundIndex) :
    (startRounds s b i).r = rightHalf b := rfl

@[simp] theorem startRounds_outLog (s : State) (b : Block) (i : RoundIndex) :
    (startRounds s b i).outLog = s.outLog := rfl

@[simp] theorem startRounds_cmdStream (s : State) (b : Block) (i : RoundIndex) :
    (startRounds s b i).cmdStream = s.cmdStream := rfl

@[simp] theorem startRounds_hostScript (s : State) (b : Block) (i : RoundIndex) :
    (startRounds s b i).hostScript = s.hostScript := rfl

@[simp] theorem startRounds_hostRest (s : State) (b : Block) (i : RoundIndex) :
    (startRounds s b i).hostRest = s.hostRest := rfl

@[simp] theorem startRounds_freeCount (s : State) (b : Block) (i : RoundIndex) :
    (startRounds s b i).freeCount = s.freeCount := rfl

/-! `loadCommand` -/

@[simp] theorem loadCommand_phase (s : State) (op : Operation) (k : MasterKey) (b : Block) (i : RoundIndex) :
    (loadCommand s op k b i).phase = .round := rfl

@[simp] theorem loadCommand_opr (s : State) (op : Operation) (k : MasterKey) (b : Block) (i : RoundIndex) :
    (loadCommand s op k b i).opr = op := rfl

@[simp] theorem loadCommand_ri (s : State) (op : Operation) (k : MasterKey) (b : Block) (i : RoundIndex) :
    (loadCommand s op k b i).ri = i := rfl

@[simp] theorem loadCommand_keyr (s : State) (op : Operation) (k : MasterKey) (b : Block) (i : RoundIndex) :
    (loadCommand s op k b i).keyr = k := rfl

@[simp] theorem loadCommand_blkr (s : State) (op : Operation) (k : MasterKey) (b : Block) (i : RoundIndex) :
    (loadCommand s op k b i).blkr = b := rfl

@[simp] theorem loadCommand_l (s : State) (op : Operation) (k : MasterKey) (b : Block) (i : RoundIndex) :
    (loadCommand s op k b i).l = leftHalf b := rfl

@[simp] theorem loadCommand_r (s : State) (op : Operation) (k : MasterKey) (b : Block) (i : RoundIndex) :
    (loadCommand s op k b i).r = rightHalf b := rfl

@[simp] theorem loadCommand_outLog (s : State) (op : Operation) (k : MasterKey) (b : Block) (i : RoundIndex) :
    (loadCommand s op k b i).outLog = s.outLog := rfl

@[simp] theorem loadCommand_cmdStream (s : State) (op : Operation) (k : MasterKey) (b : Block) (i : RoundIndex) :
    (loadCommand s op k b i).cmdStream = s.cmdStream := rfl

@[simp] theorem loadCommand_hostScript (s : State) (op : Operation) (k : MasterKey) (b : Block) (i : RoundIndex) :
    (loadCommand s op k b i).hostScript = s.hostScript := rfl

@[simp] theorem loadCommand_hostRest (s : State) (op : Operation) (k : MasterKey) (b : Block) (i : RoundIndex) :
    (loadCommand s op k b i).hostRest = s.hostRest := rfl

@[simp] theorem loadCommand_freeCount (s : State) (op : Operation) (k : MasterKey) (b : Block) (i : RoundIndex) :
    (loadCommand s op k b i).freeCount = s.freeCount := rfl

/-! `setHalves` -/

@[simp] theorem setHalves_phase (s : State) (lr : HalfBlock × HalfBlock) :
    (setHalves s lr).phase = s.phase := rfl

@[simp] theorem setHalves_opr (s : State) (lr : HalfBlock × HalfBlock) :
    (setHalves s lr).opr = s.opr := rfl

@[simp] theorem setHalves_ri (s : State) (lr : HalfBlock × HalfBlock) :
    (setHalves s lr).ri = s.ri := rfl

@[simp] theorem setHalves_keyr (s : State) (lr : HalfBlock × HalfBlock) :
    (setHalves s lr).keyr = s.keyr := rfl

@[simp] theorem setHalves_blkr (s : State) (lr : HalfBlock × HalfBlock) :
    (setHalves s lr).blkr = s.blkr := rfl

@[simp] theorem setHalves_l (s : State) (lr : HalfBlock × HalfBlock) :
    (setHalves s lr).l = lr.1 := rfl

@[simp] theorem setHalves_r (s : State) (lr : HalfBlock × HalfBlock) :
    (setHalves s lr).r = lr.2 := rfl

@[simp] theorem setHalves_outLog (s : State) (lr : HalfBlock × HalfBlock) :
    (setHalves s lr).outLog = s.outLog := rfl

@[simp] theorem setHalves_cmdStream (s : State) (lr : HalfBlock × HalfBlock) :
    (setHalves s lr).cmdStream = s.cmdStream := rfl

@[simp] theorem setHalves_hostScript (s : State) (lr : HalfBlock × HalfBlock) :
    (setHalves s lr).hostScript = s.hostScript := rfl

@[simp] theorem setHalves_hostRest (s : State) (lr : HalfBlock × HalfBlock) :
    (setHalves s lr).hostRest = s.hostRest := rfl

@[simp] theorem setHalves_freeCount (s : State) (lr : HalfBlock × HalfBlock) :
    (setHalves s lr).freeCount = s.freeCount := rfl

/-! `emitRecord` -/

@[simp] theorem emitRecord_phase (s : State) :
    (emitRecord s).phase = s.phase := rfl

@[simp] theorem emitRecord_opr (s : State) :
    (emitRecord s).opr = s.opr := rfl

@[simp] theorem emitRecord_ri (s : State) :
    (emitRecord s).ri = s.ri := rfl

@[simp] theorem emitRecord_keyr (s : State) :
    (emitRecord s).keyr = s.keyr := rfl

@[simp] theorem emitRecord_blkr (s : State) :
    (emitRecord s).blkr = s.blkr := rfl

@[simp] theorem emitRecord_l (s : State) :
    (emitRecord s).l = s.l := rfl

@[simp] theorem emitRecord_r (s : State) :
    (emitRecord s).r = s.r := rfl

@[simp] theorem emitRecord_outLog (s : State) :
    (emitRecord s).outLog = s.outLog ++ [offeredRecord s] := rfl

@[simp] theorem emitRecord_cmdStream (s : State) :
    (emitRecord s).cmdStream = s.cmdStream := rfl

@[simp] theorem emitRecord_hostScript (s : State) :
    (emitRecord s).hostScript = s.hostScript := rfl

@[simp] theorem emitRecord_hostRest (s : State) :
    (emitRecord s).hostRest = s.hostRest := rfl

@[simp] theorem emitRecord_freeCount (s : State) :
    (emitRecord s).freeCount = s.freeCount := rfl

/-! `emitSingle` -/

@[simp] theorem emitSingle_phase (s : State) :
    (emitSingle s).phase = .idle := rfl

@[simp] theorem emitSingle_opr (s : State) :
    (emitSingle s).opr = s.opr := rfl

@[simp] theorem emitSingle_ri (s : State) :
    (emitSingle s).ri = s.ri := rfl

@[simp] theorem emitSingle_keyr (s : State) :
    (emitSingle s).keyr = s.keyr := rfl

@[simp] theorem emitSingle_blkr (s : State) :
    (emitSingle s).blkr = s.blkr := rfl

@[simp] theorem emitSingle_l (s : State) :
    (emitSingle s).l = s.l := rfl

@[simp] theorem emitSingle_r (s : State) :
    (emitSingle s).r = s.r := rfl

@[simp] theorem emitSingle_outLog (s : State) :
    (emitSingle s).outLog = s.outLog ++ [offeredRecord s] := rfl

@[simp] theorem emitSingle_cmdStream (s : State) :
    (emitSingle s).cmdStream = s.cmdStream := rfl

@[simp] theorem emitSingle_hostScript (s : State) :
    (emitSingle s).hostScript = s.hostScript := rfl

@[simp] theorem emitSingle_hostRest (s : State) :
    (emitSingle s).hostRest = s.hostRest := rfl

@[simp] theorem emitSingle_freeCount (s : State) :
    (emitSingle s).freeCount = s.freeCount := rfl

/-! `beginCycle` -/

@[simp] theorem beginCycle_phase (s : State) :
    (beginCycle s).phase = s.phase := rfl

@[simp] theorem beginCycle_opr (s : State) :
    (beginCycle s).opr = s.opr := rfl

@[simp] theorem beginCycle_ri (s : State) :
    (beginCycle s).ri = s.ri := rfl

@[simp] theorem beginCycle_keyr (s : State) :
    (beginCycle s).keyr = s.keyr := rfl

@[simp] theorem beginCycle_blkr (s : State) :
    (beginCycle s).blkr = s.blkr := rfl

@[simp] theorem beginCycle_l (s : State) :
    (beginCycle s).l = s.l := rfl

@[simp] theorem beginCycle_r (s : State) :
    (beginCycle s).r = s.r := rfl

@[simp] theorem beginCycle_outLog (s : State) :
    (beginCycle s).outLog = s.outLog := rfl

@[simp] theorem beginCycle_cmdStream (s : State) :
    (beginCycle s).cmdStream = streamNow s := rfl

@[simp] theorem beginCycle_hostScript (s : State) :
    (beginCycle s).hostScript = s.hostScript.tail := rfl

@[simp] theorem beginCycle_hostRest (s : State) :
    (beginCycle s).hostRest = s.hostRest := rfl

@[simp] theorem beginCycle_freeCount (s : State) :
    (beginCycle s).freeCount = s.freeCount := rfl

/-! `popCommand` -/

@[simp] theorem popCommand_phase (s : State) :
    (popCommand s).phase = s.phase := rfl

@[simp] theorem popCommand_opr (s : State) :
    (popCommand s).opr = s.opr := rfl

@[simp] theorem popCommand_ri (s : State) :
    (popCommand s).ri = s.ri := rfl

@[simp] theorem popCommand_keyr (s : State) :
    (popCommand s).keyr = s.keyr := rfl

@[simp] theorem popCommand_blkr (s : State) :
    (popCommand s).blkr = s.blkr := rfl

@[simp] theorem popCommand_l (s : State) :
    (popCommand s).l = s.l := rfl

@[simp] theorem popCommand_r (s : State) :
    (popCommand s).r = s.r := rfl

@[simp] theorem popCommand_outLog (s : State) :
    (popCommand s).outLog = s.outLog := rfl

@[simp] theorem popCommand_cmdStream (s : State) :
    (popCommand s).cmdStream = s.cmdStream.tail := rfl

@[simp] theorem popCommand_hostScript (s : State) :
    (popCommand s).hostScript = s.hostScript := rfl

@[simp] theorem popCommand_hostRest (s : State) :
    (popCommand s).hostRest = s.hostRest := rfl

@[simp] theorem popCommand_freeCount (s : State) :
    (popCommand s).freeCount = s.freeCount := rfl

/-! `advanceRound` moves the position and nothing else. -/

@[simp] theorem advanceRound_opr (s : State) (o : Option RoundIndex) :
    (advanceRound s o).opr = s.opr := by cases o <;> rfl

@[simp] theorem advanceRound_keyr (s : State) (o : Option RoundIndex) :
    (advanceRound s o).keyr = s.keyr := by cases o <;> rfl

@[simp] theorem advanceRound_blkr (s : State) (o : Option RoundIndex) :
    (advanceRound s o).blkr = s.blkr := by cases o <;> rfl

@[simp] theorem advanceRound_l (s : State) (o : Option RoundIndex) :
    (advanceRound s o).l = s.l := by cases o <;> rfl

@[simp] theorem advanceRound_r (s : State) (o : Option RoundIndex) :
    (advanceRound s o).r = s.r := by cases o <;> rfl

@[simp] theorem advanceRound_outLog (s : State) (o : Option RoundIndex) :
    (advanceRound s o).outLog = s.outLog := by cases o <;> rfl

@[simp] theorem advanceRound_cmdStream (s : State) (o : Option RoundIndex) :
    (advanceRound s o).cmdStream = s.cmdStream := by cases o <;> rfl

@[simp] theorem advanceRound_hostScript (s : State) (o : Option RoundIndex) :
    (advanceRound s o).hostScript = s.hostScript := by cases o <;> rfl

@[simp] theorem advanceRound_hostRest (s : State) (o : Option RoundIndex) :
    (advanceRound s o).hostRest = s.hostRest := by cases o <;> rfl

@[simp] theorem advanceRound_freeCount (s : State) (o : Option RoundIndex) :
    (advanceRound s o).freeCount = s.freeCount := by cases o <;> rfl

@[simp] theorem advanceRound_some (s : State) (i : RoundIndex) :
    advanceRound s (some i) = { s with ri := i } := rfl

@[simp] theorem advanceRound_none (s : State) :
    advanceRound s none = { s with phase := .emit } := rfl

end Sys2Proof.Machine
end

