-- ==== Sys2Proof/Laws/Ops.lean ====
section
/-! SUPPORT. What each shared operation can do, said once: the acceptance of a command, one round, the
taking of a record, the host's side of a cycle. -/

namespace Sys2Proof.Machine

/-! Halves and blocks. -/

theorem leftHalf_joinHalves (l r : HalfBlock) : leftHalf (joinHalves l r) = l := by
  apply BitVec.eq_of_getLsbD_eq
  intro i hi
  simp only [leftHalf, joinHalves, BitVec.getLsbD_extractLsb', BitVec.getLsbD_append]
  simp [hi]

theorem rightHalf_joinHalves (l r : HalfBlock) : rightHalf (joinHalves l r) = r := by
  apply BitVec.eq_of_getLsbD_eq
  intro i hi
  simp only [rightHalf, joinHalves, BitVec.getLsbD_extractLsb', BitVec.getLsbD_append]
  simp [hi]

theorem joinHalves_halves (b : Block) : joinHalves (leftHalf b) (rightHalf b) = b := by
  apply BitVec.eq_of_getLsbD_eq
  intro i hi
  simp only [joinHalves, leftHalf, rightHalf, BitVec.getLsbD_append, BitVec.getLsbD_extractLsb']
  by_cases h : i < 6
  · simp [h]
  · have h6 : i - 6 < 6 := by omega
    have h0 : 6 + (i - 6) = i := by omega
    simp [h, h6, h0]

@[simp] theorem splitBlock_joinPair (lr : HalfBlock × HalfBlock) : splitBlock (joinPair lr) = lr := by
  simp [splitBlock, joinPair, leftHalf_joinHalves, rightHalf_joinHalves]

@[simp] theorem joinPair_splitBlock (b : Block) : joinPair (splitBlock b) = b :=
  joinHalves_halves b

/-! The acceptance of a command. -/

theorem acceptCommand_idle (effect : State → State) {s : State} (h : s.phase = .idle) :
    acceptCommand effect s = .next (effect s) := if_pos h

theorem acceptCommand_busy (effect : State → State) {s : State} (h : s.phase ≠ .idle) :
    acceptCommand effect s = .next s := if_neg h

/-- If an acceptance answers a next state, it is the effect's on a ready engine, and the state itself
on a busy one. -/
theorem acceptCommand_cases {effect : State → State} {s t : State}
    (h : acceptCommand effect s = .next t) :
    (s.phase = .idle ∧ t = effect s) ∨ (s.phase ≠ .idle ∧ t = s) := by
  by_cases hp : s.phase = .idle
  · rw [acceptCommand_idle effect hp] at h
    injection h with h
    exact .inl ⟨hp, h.symm⟩
  · rw [acceptCommand_busy effect hp] at h
    injection h with h
    exact .inr ⟨hp, h.symm⟩

/-! One round. -/

/-- A round writes L and R, and moves RI or PHASE; the other fields are as they were. -/
theorem encryptRound_frame (s : State) :
    (encryptRound s).opr = s.opr ∧ (encryptRound s).keyr = s.keyr ∧
      (encryptRound s).blkr = s.blkr ∧ (encryptRound s).outLog = s.outLog ∧
      (encryptRound s).cmdStream = s.cmdStream ∧ (encryptRound s).hostScript = s.hostScript ∧
      (encryptRound s).hostRest = s.hostRest ∧ (encryptRound s).freeCount = s.freeCount := by
  simp [encryptRound]

theorem decryptRound_frame (s : State) :
    (decryptRound s).opr = s.opr ∧ (decryptRound s).keyr = s.keyr ∧
      (decryptRound s).blkr = s.blkr ∧ (decryptRound s).outLog = s.outLog ∧
      (decryptRound s).cmdStream = s.cmdStream ∧ (decryptRound s).hostScript = s.hostScript ∧
      (decryptRound s).hostRest = s.hostRest ∧ (decryptRound s).freeCount = s.freeCount := by
  simp [decryptRound]

theorem encryptRound_halves (s : State) :
    ((encryptRound s).l, (encryptRound s).r) =
      encryptStep roundFunction (currentSubkey s) (s.l, s.r) := by
  simp [encryptRound]

theorem decryptRound_halves (s : State) :
    ((decryptRound s).l, (decryptRound s).r) =
      decryptStep roundFunction (currentSubkey s) (s.l, s.r) := by
  simp [decryptRound]

/-- A ROUND step in either direction leaves all but L, R and the position. -/
theorem roundCycle_frame (s : State) :
    (roundCycle s).opr = s.opr ∧ (roundCycle s).keyr = s.keyr ∧
      (roundCycle s).blkr = s.blkr ∧ (roundCycle s).outLog = s.outLog ∧
      (roundCycle s).cmdStream = s.cmdStream ∧ (roundCycle s).hostScript = s.hostScript ∧
      (roundCycle s).hostRest = s.hostRest ∧ (roundCycle s).freeCount = s.freeCount := by
  cases h : s.opr <;> simp [roundCycle, h, encryptRound, decryptRound]

/-! Taking a record. -/

/-- An EMIT step with the record taken appends it and leaves BLKR, OPR and the host's side. -/
theorem emitCycle_frame (s : State) :
    (emitCycle s).outLog = s.outLog ++ [offeredRecord s] ∧ (emitCycle s).opr = s.opr ∧
      (emitCycle s).blkr = s.blkr ∧ (emitCycle s).cmdStream = s.cmdStream ∧
      (emitCycle s).hostScript = s.hostScript ∧ (emitCycle s).hostRest = s.hostRest ∧
      (emitCycle s).freeCount = s.freeCount := by
  cases h : s.opr
  case srch =>
    by_cases hk : s.keyr = lastKey <;> simp [emitCycle, h, emitSearch, hk]
  all_goals simp [emitCycle, h]

/-! The host's side of a cycle. -/

theorem offeredWord_eq_head (s : State) (w : CommandWord) (h : offeredWord s = some w) :
    (streamNow s).head? = some w := by
  unfold offeredWord at h
  unfold streamNow
  split at h <;> simp_all

theorem hostNow_nil {s : State} (h : s.hostScript = []) : hostNow s = s.hostRest := by
  simp [hostNow, h]

/-! Placing a word. -/

theorem wordOfBits_ok {w : Nat} (h : w < 2 ^ 23) : wordOfBits w = .ok (BitVec.ofNat 23 w) := if_pos h

theorem wordOfBits_error {w : Nat} (h : ¬ w < 2 ^ 23) : wordOfBits w = .error .widerThanCommand :=
  if_neg h

theorem offerBitsNext_ok {w : Nat} (s : State) (h : w < 2 ^ 23) :
    offerBitsNext s w = offerNext s (BitVec.ofNat 23 w) := by simp only [offerBitsNext, wordOfBits_ok h]

theorem offerBitsNext_wide {w : Nat} (s : State) (h : ¬ w < 2 ^ 23) : offerBitsNext s w = s := by
  simp only [offerBitsNext, wordOfBits_error h]

/-- A pattern decodes exactly when it is a word of the port, and then as that word does. -/
theorem decodeTableWord_cases (nbits w : Nat) :
    (w < 2 ^ 23 ∧ decodeTableWord nbits w = some (decode (BitVec.ofNat 23 w))) ∨
      (¬ w < 2 ^ 23 ∧ decodeTableWord nbits w = none) := by
  by_cases h : w < 2 ^ 23
  · exact .inl ⟨h, by simp only [decodeTableWord, decodeBits, wordOfBits_ok h, Except.map]⟩
  · exact .inr ⟨h, by simp only [decodeTableWord, decodeBits, wordOfBits_error h, Except.map]⟩

end Sys2Proof.Machine
end

