-- ==== Sys2Proof/Laws/PerInstr.lean ====
section
/-! SUPPORT. A statement about every command as syntax: its canonical word is a word of its row of the
opcode table, with zeros in the fields the row ignores (rules R48, R49). -/

namespace Sys2Proof.Laws.OpcodeRow

/-- The word of `i` matches its row's mask and pattern, and its ignored fields are zero. -/
def Statement (i : Instr) : Prop :=
  encode i &&& (rowOf i).mask = (rowOf i).pattern ∧ encode i &&& (rowOf i).ignored = 0#23

/-- AND acts field by field on a packed command. -/
theorem packCommand_and (op op' : BitVec 2) (key key' : MasterKey) (block block' : Block) :
    packCommand op key block &&& packCommand op' key' block' =
      packCommand (op &&& op') (key &&& key') (block &&& block') := by
  apply BitVec.eq_of_getLsbD_eq
  intro i _
  simp only [packCommand, BitVec.getLsbD_and, BitVec.getLsbD_append]
  split
  · rfl
  · split <;> rfl

/-- The opcode bits of a packed command are bits 22 and 21 of its word. -/
theorem packCommand_mask (op : BitVec 2) (key : MasterKey) (block : Block) :
    packCommand op key block &&& 0x600000#23 = packCommand op 0#9 0#12 := by
  have hm : 0x600000#23 = packCommand 0b11#2 0#9 0#12 := by decide
  have h3 : op &&& 0b11#2 = op := BitVec.and_allOnes
  rw [hm, packCommand_and, h3, BitVec.and_zero, BitVec.and_zero]

theorem nop : Statement .nop := by unfold Statement; decide

theorem enc (block : Block) (key : MasterKey) : Statement (.enc block key) :=
  ⟨packCommand_mask _ _ _, BitVec.and_zero⟩

theorem dec (block : Block) (key : MasterKey) : Statement (.dec block key) :=
  ⟨packCommand_mask _ _ _, BitVec.and_zero⟩

theorem srch (block : Block) : Statement (.srch block) := by
  refine ⟨packCommand_mask _ _ _, ?_⟩
  have hm : 0x1FF000#23 = packCommand 0#2 0x1FF#9 0#12 := by decide
  have hz : 0#23 = packCommand 0#2 0#9 0#12 := by decide
  simp only [encode, rowOf]
  rw [hm, hz, packCommand_and, BitVec.and_zero, BitVec.and_zero, BitVec.zero_and]

end Sys2Proof.Laws.OpcodeRow
end

