-- ==== Sys2Proof/Laws/Step.lean ====
section
/-! SUPPORT. What one step can do, said once: an equation for each case of a cycle, and the list of all
cases. -/

namespace Sys2Proof.Machine

theorem step_of_rst {s : State} (h : (hostNow s).rst = true) :
    step s = .next (resetCycle (beginCycle s)) := by simp [step, cycle, h]

theorem step_of_idle_offer {s : State} {w : CommandWord} (h : (hostNow s).rst = false)
    (hp : s.phase = .idle) (hw : offeredWord s = some w) :
    step s = exec (decode w) (popCommand (beginCycle s)) := by
  simp [step, cycle, h, hp, hw, idleCycle]

theorem step_of_idle_hold {s : State} (h : (hostNow s).rst = false) (hp : s.phase = .idle)
    (hw : offeredWord s = none) : step s = .next (beginCycle s) := by
  simp [step, cycle, h, hp, hw, idleCycle]

theorem step_of_round {s : State} (h : (hostNow s).rst = false) (hp : s.phase = .round) :
    step s = .next (roundCycle (beginCycle s)) := by simp [step, cycle, h, hp]

theorem step_of_emit_taken {s : State} (h : (hostNow s).rst = false) (hp : s.phase = .emit)
    (hr : (hostNow s).outReady = true) : step s = .next (emitCycle (beginCycle s)) := by
  simp [step, cycle, h, hp, hr]

theorem step_of_emit_hold {s : State} (h : (hostNow s).rst = false) (hp : s.phase = .emit)
    (hr : (hostNow s).outReady = false) : step s = .next (beginCycle s) := by
  simp [step, cycle, h, hp, hr]

/-- What a command does when an idle engine accepts it. -/
def loaded (i : Instr) (s : State) : State :=
  match i with
  | .nop => s
  | .enc block key => loadCommand s .enc key block .one
  | .dec block key => loadCommand s .dec key block .four
  | .srch block => loadCommand s .srch 0#9 block .four

theorem exec_of_idle (i : Instr) {s : State} (h : s.phase = .idle) :
    exec i s = .next (loaded i s) := by
  cases i <;>
    simp only [exec, execNop, execEnc, execDec, execSrch, loaded, acceptCommand_idle _ h]

theorem exec_of_busy (i : Instr) {s : State} (h : s.phase ≠ .idle) : exec i s = .next s := by
  cases i <;>
    simp only [exec, execNop, execEnc, execDec, execSrch, acceptCommand_busy _ h]

/-- An accepted command leaves the log and the host's side. -/
theorem loaded_frame (i : Instr) (s : State) :
    (loaded i s).outLog = s.outLog ∧ (loaded i s).cmdStream = s.cmdStream ∧
      (loaded i s).hostScript = s.hostScript ∧ (loaded i s).hostRest = s.hostRest ∧
      (loaded i s).freeCount = s.freeCount := by
  cases i <;> simp [loaded]

/-- Every step is one of six: a reset cycle, an acceptance, a hold in IDLE, a round, a record taken,
a hold in EMIT. -/
theorem step_cases (s : State) :
    ((hostNow s).rst = true ∧ step s = .next (resetCycle (beginCycle s))) ∨
    ((hostNow s).rst = false ∧
      ((s.phase = .idle ∧ ∃ w, offeredWord s = some w ∧
          step s = .next (loaded (decode w) (popCommand (beginCycle s)))) ∨
       (s.phase = .idle ∧ offeredWord s = none ∧ step s = .next (beginCycle s)) ∨
       (s.phase = .round ∧ step s = .next (roundCycle (beginCycle s))) ∨
       (s.phase = .emit ∧ (hostNow s).outReady = true ∧
          step s = .next (emitCycle (beginCycle s))) ∨
       (s.phase = .emit ∧ (hostNow s).outReady = false ∧ step s = .next (beginCycle s)))) := by
  cases h : (hostNow s).rst with
  | true => exact .inl ⟨rfl, step_of_rst h⟩
  | false =>
    refine .inr ⟨rfl, ?_⟩
    cases hp : s.phase with
    | idle =>
      cases hw : offeredWord s with
      | none => exact .inr (.inl ⟨rfl, rfl, step_of_idle_hold h hp hw⟩)
      | some w =>
        exact .inl ⟨rfl, w, rfl, (step_of_idle_offer h hp hw).trans (exec_of_idle _ (by simpa using hp))⟩
    | round => exact .inr (.inr (.inl ⟨rfl, step_of_round h hp⟩))
    | emit =>
      cases hr : (hostNow s).outReady with
      | true => exact .inr (.inr (.inr (.inl ⟨rfl, rfl, step_of_emit_taken h hp hr⟩)))
      | false => exact .inr (.inr (.inr (.inr ⟨rfl, rfl, step_of_emit_hold h hp hr⟩)))

/-! Runs. -/

theorem run_zero (s : State) : run 0 s = .next s := rfl

theorem run_succ_of_step {n : Nat} {s t : State} (h : step s = .next t) :
    run (n + 1) s = run n t := by
  simp only [run, Host.Core.run]
  have : Sys2Proof.core.step s = .next t := h
  rw [this]

theorem run_add {m n : Nat} {s t : State} (h : run m s = .next t) :
    run (m + n) s = run n t := by
  induction m generalizing s with
  | zero =>
    rw [run_zero] at h
    injection h with h
    subst h
    rw [Nat.zero_add]
  | succ m ih =>
    obtain ⟨_, he⟩ | ⟨_, ⟨_, w, _, he⟩ | ⟨_, _, he⟩ | ⟨_, he⟩ | ⟨_, _, he⟩ | ⟨_, _, he⟩⟩ := step_cases s <;>
    · rw [run_succ_of_step he] at h
      rw [Nat.add_right_comm, run_succ_of_step he]
      exact ih h

end Sys2Proof.Machine
end

