-- ==== Sys2Proof/Tests/Slice0.lean ====
section
/-! SUPPORT. Small checks against values the spec prints (each test names its source), the smoke test of
the well-formedness checks, and for every statement with hypotheses a state and operands that meet
them. -/

namespace Sys2Proof.Tests

open Sys2Proof Sys2Proof.Machine

/-! ### States the tests share -/

/-- `s` whose coming cycle is `c`. -/
def withCycle (s : State) (c : HostCycle) : State := { s with hostScript := [c] }

/-- An idle engine with an eager host and these words on its stream. -/
def idleWith (ws : List CommandWord) : State := { State.reset with cmdStream := ws }

/-- A command in ROUND with its registers as given. -/
def inRound (op : Operation) (ri : RoundIndex) (key : MasterKey) (block : Block) (l r : HalfBlock) :
    State :=
  { State.reset with
    phase := .round, opr := op, ri := ri, keyr := key, blkr := block, l := l, r := r }

/-- A command in EMIT with its registers as given. -/
def inEmit (op : Operation) (ri : RoundIndex) (key : MasterKey) (block : Block) (l r : HalfBlock) :
    State :=
  { inRound op ri key block l r with phase := .emit }

/-- A cycle with `rst` = 1 and `out_ready` = 1. -/
def resetPin : HostCycle := ⟨true, .offer, true⟩

/-- A cycle in which the host takes no record. -/
def slowHost : HostCycle := ⟨false, .offer, false⟩

/-- ENC 2730, 341 in EMIT, as in 95_test_vectors.md section 3.7. -/
def encEmit : State := inEmit .enc .four 341#9 2730#12 0b010100#6 0b010000#6

/-- A field of the next state, if there is one. -/
def after {α : Type} (o : Host.Outcome State Fault Refusal) (g : State → α) : Option α :=
  match o with
  | .next t => some (g t)
  | _ => none

/-! ### Well-formedness (rule R51): an ill-formed term for each check -/

theorem test_block_out_of_range : blockInRange 4096 = false ∧ blockInRange 4095 = true := by decide

theorem test_key_out_of_range : keyInRange 512 = false ∧ keyInRange 511 = true := by decide

theorem test_ill_formed_commands :
    (SourceCommand.enc 4096 0).wellFormed = false ∧ (SourceCommand.enc 0 512).wellFormed = false ∧
      (SourceCommand.dec 4096 0).wellFormed = false ∧ (SourceCommand.dec 0 512).wellFormed = false ∧
      (SourceCommand.srch 4096).wellFormed = false := by decide

/-! ### Decoding: words written out bit by bit (30_encoding.md R48, 95_test_vectors.md 3.6) -/

theorem test_decode_nop : decode 0b00_000000000_000000000000#23 = .nop := by decide

theorem test_decode_nop_ignores : decode 0b00_111111111_111111111111#23 = .nop := by decide

theorem test_decode_enc : decode 0b01_010011001_011100100110#23 = .enc 1830#12 153#9 := by decide

theorem test_decode_dec : decode 0b10_010011001_100001001111#23 = .dec 2127#12 153#9 := by decide

theorem test_decode_srch : decode 0b11_000000000_010100010000#23 = .srch 1296#12 := by decide

theorem test_decode_srch_ignores : decode 0b11_111111111_111111111111#23 = .srch 4095#12 := by
  decide

theorem test_encode_words :
    encode .nop = 0x000000#23 ∧ encode (.enc 2730#12 341#9) = 0x355AAA#23 ∧
      encode (.dec 1296#12 341#9) = 0x555510#23 ∧ encode (.srch 1296#12) = 0x600510#23 := by decide

/-- A pattern wider than the port is refused by name (R31). -/
theorem test_wide_pattern_refused :
    decodeBits 0x800000 = .error .widerThanCommand ∧ decodeTableWord 24 0x800000 = none ∧
      decodeTableWord 24 0x355AAA = some (.enc 2730#12 341#9) := ⟨rfl, rfl, rfl⟩

/-! ### Datapath and cipher (95_test_vectors.md sections 3.1 to 3.5) -/

theorem test_key_schedule :
    encryptOrder.map (keySchedule 316#9) = [158#8, 60#8, 121#8, 242#8] ∧
      encryptOrder.map (keySchedule 448#9) = [224#8, 192#8, 129#8, 3#8] ∧
      encryptOrder.map (keySchedule 64#9) = [32#8, 64#8, 128#8, 0#8] := by decide

theorem test_expansion :
    expand 0b000100#6 = 0b00101000#8 ∧ expand 0b001000#6 = 0b00010100#8 ∧
      expand 0b101010#6 = 0b10010110#8 := by decide

theorem test_round_function :
    roundFunction 0b101010#6 0b10101010#8 = 54#6 ∧ roundFunction 0b001000#6 0#8 = 23#6 ∧
      roundFunction 0b010101#6 0b01011010#8 = 53#6 := by decide

theorem test_encrypt :
    encrypt 1830#12 153#9 = 2127#12 ∧ encrypt 0#12 256#9 = 2302#12 ∧
      encrypt 3425#12 71#9 = 460#12 := by decide +kernel

theorem test_decrypt :
    decrypt 0#12 256#9 = 1107#12 ∧ decrypt 2730#12 341#9 = 3296#12 ∧
      decrypt 704#12 444#9 = 346#12 := by decide +kernel

/-- Entries of the search tables (95_test_vectors.md sections 5.1, 5.2). -/
theorem test_search_entries :
    trial 0#12 3 = (3#9, 2710#12) ∧ trial 0#12 511 = (511#9, 3994#12) ∧
      trial 1296#12 0 = (0#9, 3429#12) ∧ trial 1296#12 341 = (341#9, 2730#12) := by decide +kernel

/-! ### One step each (95_test_vectors.md sections 3.7, 3.8) -/

theorem test_nop_step :
    after (step (idleWith [0x1FFFFF#23])) (fun t => (t.phase, t.keyr, t.cmdStream, t.outLog)) =
      some (.idle, State.reset.keyr, [], []) := by decide

theorem test_enc_accept :
    after (step (idleWith [0x355AAA#23]))
        (fun t => (t.phase, t.opr, t.ri, t.keyr, t.blkr, t.l, t.r)) =
      some (.round, .enc, .one, 341#9, 2730#12, 0b101010#6, 0b101010#6) := rfl

theorem test_encrypt_round_step :
    after (step (inRound .enc .four 341#9 2730#12 0b100001#6 0b010100#6))
        (fun t => (t.phase, t.ri, t.l, t.r, outPort t)) =
      some (.emit, .four, 0b010100#6, 0b010000#6, some 0x155510#21) := by decide

theorem test_emit_step :
    after (step encEmit) (fun t => (t.phase, t.outLog, busy t)) =
      some (.idle, [0x155510#21], false) := by decide

theorem test_dec_accept :
    after (step (idleWith [0x555510#23])) (fun t => (t.phase, t.opr, t.ri, t.keyr, t.l, t.r)) =
      some (.round, .dec, .four, 341#9, 0b010100#6, 0b010000#6) := by decide

theorem test_decrypt_round_step :
    after (step (inRound .dec .four 341#9 1296#12 0b010100#6 0b010000#6))
        (fun t => (t.phase, t.ri, t.l, t.r)) =
      some (.round, .three, 0b100001#6, 0b010100#6) := by decide

theorem test_srch_accept :
    after (step (idleWith [0x7FFFFF#23])) (fun t => (t.phase, t.opr, t.ri, t.keyr, t.blkr)) =
      some (.round, .srch, .four, 0#9, 4095#12) := by decide

theorem test_emit_and_advance_step :
    after (step (inEmit .srch .one 1#9 0#12 0b010100#6 0b110010#6))
        (fun t => (t.phase, t.ri, t.keyr, t.l, t.r, t.outLog)) =
      some (.round, .four, 2#9, 0#6, 0#6, [0x001532#21]) := rfl

theorem test_emit_of_last_key :
    after (step (inEmit .srch .one 511#9 0#12 0b111110#6 0b011010#6))
        (fun t => (t.phase, t.keyr, t.outLog)) = some (.idle, 511#9, [0x1FFF9A#21]) := by decide

/-- Reset while a record is offered: it is not handed over (95 section 3.8, R103, R114). -/
theorem test_reset_while_offered :
    after (step (withCycle encEmit resetPin)) (fun t => (t.phase, t.outLog)) =
      some (.idle, []) := by decide

/-- A slow host: the record stays on the port (95 section 3.8, R36, R118). -/
theorem test_slow_host :
    after (step (withCycle encEmit slowHost)) (fun t => (outPort t, busy t, cmdReady t false)) =
      some (some 0x155510#21, true, false) := by decide

/-! ### Assembler (30_encoding.md R51) -/

theorem test_assemble_line :
    assembleLine "ENC 2730, 341 ; 0x355AAA".toList = .ok (some 0x355AAA#23) ∧
      assembleLine "DEC 0x510, 0b101010101".toList = .ok (some 0x555510#23) ∧
      assembleLine "SRCH 0".toList = .ok (some 0x600000#23) ∧
      assembleLine "NOP".toList = .ok (some 0#23) ∧ assembleLine "; a comment".toList = .ok none :=
  ⟨rfl, rfl, rfl, rfl, rfl⟩

theorem test_assembler_errors :
    assembleLine "ENC 4096, 0".toList = .error .operandOutOfRange ∧
      assembleLine "enc 0, 0".toList = .error .unknownMnemonic ∧
      assembleLine "SRCH 0, 0".toList = .error .wrongOperandCount ∧
      assembleLine "SRCH 0x".toList = .error .notANumber := ⟨rfl, rfl, rfl, rfl⟩

/-! ### The hypotheses of the statements can be met, clause by clause -/

theorem witness_ignored_fields :
    0x7FFFFF#23 &&& ~~~(rowOf (decode 0x7FFFFF#23)).ignored =
        0x600FFF#23 &&& ~~~(rowOf (decode 0x600FFF#23)).ignored ∧
      State.reset.phase = .idle ∧ (hostNow State.reset).rst = false ∧
      (hostNow State.reset).cmd = .offer := by decide

theorem witness_row_match : 0x355AAA#23 &&& (rowOf (.enc 0#12 0#9)).mask = (rowOf (.enc 0#12 0#9)).pattern := by
  decide

/-- Two keys that differ have the same K[2] when they differ only in k[8], which K[2] leaves out. -/
theorem witness_key_schedule :
    7 < 8 ∧ 8 < 9 ∧ keySchedule 256#9 .two = keySchedule 0#9 .two ∧
      ∀ i, keySchedule 341#9 i = keySchedule (341#9 ^^^ 0#9) i := ⟨by decide, by decide, rfl, fun _ => rfl⟩

theorem witness_round_function_dependences :
    expand 0#6 ^^^ 0#8 = expand 63#6 ^^^ 255#8 ∧
      ((0#6).extractLsb' 2 4 = (3#6).extractLsb' 2 4 ∧ (0#8).extractLsb' 4 4 = (15#8).extractLsb' 4 4) ∧
      ((0#6).extractLsb' 0 4 = (48#6).extractLsb' 0 4 ∧
        (0#8).extractLsb' 0 4 = (240#8).extractLsb' 0 4) := by decide

/-- The halves of 95 section 3.5's traces of (2730, 341) and (1296, 341) meet the equations. -/
theorem witness_encrypt_decrypt_equations :
    (0b101010#6 = rightHalf 2730#12 ∧
      0b011100#6 = roundFunction (rightHalf 2730#12) (keySchedule 341#9 .one) ^^^ leftHalf 2730#12 ∧
      0b100001#6 = roundFunction 0b011100#6 (keySchedule 341#9 .two) ^^^ 0b101010#6 ∧
      0b010100#6 = roundFunction 0b100001#6 (keySchedule 341#9 .three) ^^^ 0b011100#6 ∧
      0b010000#6 = roundFunction 0b010100#6 (keySchedule 341#9 .four) ^^^ 0b100001#6) ∧
    (0b010100#6 = leftHalf 1296#12 ∧
      0b100001#6 = roundFunction (leftHalf 1296#12) (keySchedule 341#9 .four) ^^^ rightHalf 1296#12 ∧
      0b011100#6 = roundFunction 0b100001#6 (keySchedule 341#9 .three) ^^^ 0b010100#6 ∧
      0b101010#6 = roundFunction 0b011100#6 (keySchedule 341#9 .two) ^^^ 0b100001#6 ∧
      0b101010#6 = roundFunction 0b101010#6 (keySchedule 341#9 .one) ^^^ 0b011100#6) := by decide +kernel

theorem witness_round_trip_program :
    (idleWith [encode (.enc 2730#12 341#9), encode (.dec (encrypt 2730#12 341#9) 341#9)]).phase =
        .idle ∧
      EagerHost (idleWith [encode (.enc 2730#12 341#9),
        encode (.dec (encrypt 2730#12 341#9) 341#9)]) := ⟨rfl, rfl, rfl⟩

/-- One word of each opcode at the head of an idle engine's stream. -/
theorem witness_records_per_command :
    ((idleWith [0x1FFFFF#23]).phase = .idle ∧ EagerHost (idleWith [0x1FFFFF#23])) ∧
      (idleWith [0x1FFFFF#23]).cmdStream = 0x1FFFFF#23 :: [] ∧ opField 0x1FFFFF#23 = 0b00#2 ∧
      opField 0x200000#23 = 0b01#2 ∧ opField 0x400000#23 = 0b10#2 ∧ opField 0x7FFFFF#23 = 0b11#2 :=
  ⟨⟨rfl, rfl, rfl⟩, rfl, rfl, rfl, rfl, rfl⟩

theorem witness_search_ciphertext : 1296#12 = encrypt 2730#12 341#9 := by decide +kernel

theorem witness_reset_cycle : (hostNow (withCycle encEmit resetPin)).rst = true := rfl

theorem witness_step_runs_command :
    (idleWith [0x355AAA#23]).phase = .idle ∧ (hostNow (idleWith [0x355AAA#23])).rst = false ∧
      offeredWord (idleWith [0x355AAA#23]) = some 0x355AAA#23 := ⟨rfl, rfl, rfl⟩

theorem witness_idle_hold :
    State.reset.phase = .idle ∧ (hostNow State.reset).rst = false ∧
      offeredWord State.reset = none := ⟨rfl, rfl, rfl⟩

theorem witness_busy : encEmit.phase ≠ .idle := by decide

theorem witness_busy_with_script :
    (withCycle encEmit slowHost).phase ≠ .idle ∧ (withCycle encEmit slowHost).hostScript = slowHost :: [] :=
  ⟨by decide, rfl⟩

theorem witness_step_frame :
    ∃ t, step State.reset = .next t := ⟨_, rfl⟩

theorem witness_record_held :
    (withCycle encEmit slowHost).phase = .emit ∧ (hostNow (withCycle encEmit slowHost)).rst = false ∧
      (hostNow (withCycle encEmit slowHost)).outReady = false := ⟨rfl, rfl, rfl⟩

theorem witness_last_presented :
    State.reset.phase = .idle ∧
      ((hostNow (withCycle State.reset ⟨false, .restream [0x400000#23], true⟩)).rst = false ∧
        (hostNow (withCycle State.reset ⟨false, .restream [0x400000#23], true⟩)).cmd =
          .restream (0x400000#23 :: [])) ∧
      (hostNow (withCycle State.reset ⟨false, .restream [], true⟩)).cmd = .restream [] ∧
      (hostNow (withCycle State.reset ⟨false, .withhold, true⟩)).cmd = .withhold :=
  ⟨rfl, ⟨rfl, rfl⟩, rfl, rfl⟩

theorem witness_commands_load : State.reset.phase = .idle := rfl

/-- Every row of the transition table, each at the boundary value of its range. -/
theorem witness_transition_table :
    offeredWord State.reset = none ∧
      (offeredWord (idleWith [0x1FFFFF#23]) = some 0x1FFFFF#23 ∧ opField 0x1FFFFF#23 = 0b00#2) ∧
      (offeredWord (idleWith [0x200000#23]) = some 0x200000#23 ∧ opField 0x200000#23 = 0b01#2) ∧
      (offeredWord (idleWith [0x400000#23]) = some 0x400000#23 ∧ opField 0x400000#23 = 0b10#2) ∧
      (offeredWord (idleWith [0x600000#23]) = some 0x600000#23 ∧ opField 0x600000#23 = 0b11#2) ∧
      (roundNumber .three < 4 ∧ roundNumber .four = 4) ∧
      (Operation.dec ≠ .enc ∧ roundNumber .two > 1 ∧ roundNumber .one = 1) ∧
      (hostNow (withCycle encEmit slowHost)).outReady = false ∧
      ((hostNow encEmit).outReady = true ∧ encEmit.opr ≠ .srch ∧ (hostNow encEmit).rst = false) ∧
      ((inEmit .srch .one 510#9 0#12 0#6 0#6).keyr.toNat < 511 ∧
        (inEmit .srch .one 511#9 0#12 0#6 0#6).keyr.toNat = 511) := by decide

theorem witness_encrypt_round_step :
    (inRound .enc .three 0#9 0#12 0#6 0#6).phase = .round ∧
      (inRound .enc .three 0#9 0#12 0#6 0#6).opr = .enc ∧
      (hostNow (inRound .enc .three 0#9 0#12 0#6 0#6)).rst = false ∧
      (inRound .enc .three 0#9 0#12 0#6 0#6).ri ≠ .four ∧
      (inRound .enc .four 0#9 0#12 0#6 0#6).ri = .four := by decide

theorem witness_decrypt_round_step :
    (inRound .srch .two 0#9 0#12 0#6 0#6).phase = .round ∧
      (inRound .srch .two 0#9 0#12 0#6 0#6).opr ≠ .enc ∧
      (hostNow (inRound .srch .two 0#9 0#12 0#6 0#6)).rst = false ∧
      (inRound .srch .two 0#9 0#12 0#6 0#6).ri ≠ .one ∧
      (inRound .dec .one 0#9 0#12 0#6 0#6).ri = .one := by decide

theorem witness_emit_steps :
    (encEmit.phase = .emit ∧ encEmit.opr ≠ .srch ∧ (hostNow encEmit).rst = false ∧
      (hostNow encEmit).outReady = true) ∧
    ((inEmit .srch .one 510#9 0#12 0#6 0#6).phase = .emit ∧
      (inEmit .srch .one 510#9 0#12 0#6 0#6).opr = .srch ∧
      (inEmit .srch .one 510#9 0#12 0#6 0#6).keyr ≠ 511#9 ∧
      (inEmit .srch .one 511#9 0#12 0#6 0#6).keyr = 511#9) := by decide

theorem witness_log_growth :
    (outValid encEmit = true ∧ (hostNow encEmit).outReady = true ∧ (hostNow encEmit).rst = false) ∧
      ¬ (outValid State.reset = true ∧ (hostNow State.reset).outReady = true ∧
        (hostNow State.reset).rst = false) := by decide

theorem witness_untaken_record :
    ({ encEmit with hostRest := slowHost } : State).phase = .emit ∧
      ({ encEmit with hostRest := slowHost } : State).hostScript = [] ∧
      slowHost.rst = false ∧ slowHost.outReady = false := ⟨rfl, rfl, rfl, rfl⟩

/-- A search moves KEYR when a record is taken, so the last clause's premise can hold. -/
theorem witness_key_and_block_hold :
    encEmit.phase ≠ .idle ∧ (hostNow encEmit).rst = false ∧ encEmit.opr ≠ .srch ∧
      after (step (inEmit .srch .one 510#9 0#12 0#6 0#6)) (fun t => t.keyr) = some 511#9 := by decide

/-- The trace of ENC 2730, 341 before its last round and in EMIT (95 section 3.7). -/
theorem witness_datapath_invariant :
    DatapathInv (inRound .enc .four 341#9 2730#12 0b100001#6 0b010100#6) ∧
      DatapathInv encEmit ∧ encEmit.phase = .emit ∧ encEmit.opr = .enc ∧
      DatapathInv (inEmit .dec .one 341#9 1296#12 0b101010#6 0b101010#6) := by
  have enc4 : (0b100001#6, 0b010100#6) = halvesAfter (inRound .enc .four 341#9 2730#12 0b100001#6
      0b010100#6) (roundsBefore .enc .four) := by decide +kernel
  have encDone : (0b010100#6, 0b010000#6) = halvesAfter encEmit encryptOrder := by decide +kernel
  have decDone : (0b101010#6, 0b101010#6) = halvesAfter (inEmit .dec .one 341#9 1296#12 0b101010#6
      0b101010#6) decryptOrder := by decide +kernel
  exact ⟨enc4, ⟨encDone, rfl⟩, rfl, rfl, ⟨decDone, rfl⟩⟩

theorem witness_in_progress :
    (Instr.enc 2730#12 341#9 ≠ .nop ∧ State.reset.phase = .idle) ∧
      (InProgress [] (.enc 2730#12 341#9) encEmit ∧ (hostNow encEmit).rst = false) ∧
      InProgress [] (.srch 0#12) (inEmit .srch .one 0#9 0#12 0b101011#6 0b010100#6) ∧
      (InProgress [] (.enc 2730#12 341#9) (withCycle encEmit resetPin) ∧
        (hostNow (withCycle encEmit resetPin)).rst = true) :=
  ⟨⟨nofun, rfl⟩, ⟨⟨nofun, rfl, rfl, rfl, rfl⟩, rfl⟩, ⟨nofun, rfl, rfl, rfl⟩,
    ⟨⟨nofun, rfl, rfl, rfl, rfl⟩, rfl⟩⟩

theorem witness_command_runs :
    ((idleWith [encode (.enc 0#12 0#9)]).phase = .idle ∧
      EagerHost (idleWith [encode (.enc 0#12 0#9)])) ∧
    EagerHost (idleWith [encode (.dec 0#12 0#9)]) ∧ EagerHost (idleWith [encode (.srch 0#12)]) :=
  ⟨⟨rfl, rfl, rfl⟩, ⟨rfl, rfl⟩, ⟨rfl, rfl⟩⟩

theorem witness_eager_host : DatapathInv State.reset ∧ EagerHost State.reset :=
  ⟨trivial, rfl, rfl⟩

/-- Two idle states that differ in KEYR look the same from outside. -/
theorem witness_same_outside :
    SameOutside State.reset { State.reset with keyr := 0#9 } ∧
      State.reset ≠ { State.reset with keyr := 0#9 } :=
  ⟨⟨rfl, rfl, rfl, rfl, rfl, rfl, fun h => absurd rfl h⟩, by decide⟩

theorem witness_assembler_ranges : 4095 < 4096 ∧ 511 < 512 ∧ (4096 ≤ 4096 ∨ 512 ≤ 0) := by decide

/-- The first step after reset runs a word placed next. -/
theorem test_placed_word_after_reset :
    step (State.reset.withFetchWord 23 0x600510) = exec (.srch 1296#12) State.reset := rfl

/-- A pattern one bit wider than the port is not placed, and is not read as NOP (R31, U4). -/
theorem test_wide_pattern_not_placed : State.reset.withFetchWord 24 0x800000 = State.reset := rfl

theorem witness_placed_word :
    decodeTableWord 23 0x600510 = some (.srch 1296#12) ∧
      decodeTableWord 24 0x7FFFFF = some (.srch 4095#12) ∧ decodeTableWord 24 0x800000 = none :=
  ⟨rfl, rfl, rfl⟩

end Sys2Proof.Tests
end

section
/-! The state and its registers (10_state.md): what one cycle does, as a case list, and the rules
the statements about the sequencer, the log and the datapath invariant share. -/

namespace Sys2Proof.Machine

/-! ### One cycle as a case list -/

/-- The cases of a step with the state each of them ends in: `exists_step` and `stepCase_of_step`
tie it to `step`. -/
inductive StepCase (s : State) : State → Prop
  | reset (hrst : (hostNow s).rst = true) : StepCase s (resetCycle (beginCycle s))
  | accept (w : CommandWord) (hrst : (hostNow s).rst = false) (hidle : s.phase = .idle)
      (hw : offeredWord s = some w) : StepCase s (loaded (decode w) (popCommand (beginCycle s)))
  | idle (hrst : (hostNow s).rst = false) (hidle : s.phase = .idle)
      (hw : offeredWord s = none) : StepCase s (beginCycle s)
  | round (hrst : (hostNow s).rst = false) (hround : s.phase = .round) :
      StepCase s (roundCycle (beginCycle s))
  | taken (hrst : (hostNow s).rst = false) (hemit : s.phase = .emit)
      (hready : (hostNow s).outReady = true) : StepCase s (emitCycle (beginCycle s))
  | held (hrst : (hostNow s).rst = false) (hemit : s.phase = .emit)
      (hready : (hostNow s).outReady = false) : StepCase s (beginCycle s)

theorem exists_step (s : State) : ∃ t, step s = .next t ∧ StepCase s t := by
  obtain ⟨hr, he⟩ | ⟨hr, ⟨hp, w, hw, he⟩ | ⟨hp, hw, he⟩ | ⟨hp, he⟩ | ⟨hp, ho, he⟩ | ⟨hp, ho, he⟩⟩ :=
    step_cases s
  · exact ⟨_, he, .reset hr⟩
  · exact ⟨_, he, .accept w hr hp hw⟩
  · exact ⟨_, he, .idle hr hp hw⟩
  · exact ⟨_, he, .round hr hp⟩
  · exact ⟨_, he, .taken hr hp ho⟩
  · exact ⟨_, he, .held hr hp ho⟩

/-- An acceptance with the word's command named. -/
theorem step_of_accept {s : State} {w : CommandWord} {i : Instr} (hrst : (hostNow s).rst = false)
    (hp : s.phase = .idle) (hw : offeredWord s = some w) (hi : decode w = i) :
    step s = .next (loaded i (popCommand (beginCycle s))) := by
  rw [step_of_idle_offer hrst hp hw, hi]
  exact exec_of_idle i hp

/-- A step has one result. -/
theorem step_unique {s t t' : State} (h : step s = .next t) (h' : step s = .next t') : t = t' :=
  Host.Outcome.next.inj (h.symm.trans h')

theorem stepCase_of_step {s t : State} (h : step s = .next t) : StepCase s t := by
  obtain ⟨t', he, hc⟩ := exists_step s
  exact step_unique h he ▸ hc

/-! ### Words by their opcode (R46) -/

theorem decode_of_op00 {w : CommandWord} (h : opField w = 0b00#2) : decode w = .nop := by
  simp [decode, h]

theorem decode_of_op01 {w : CommandWord} (h : opField w = 0b01#2) :
    decode w = .enc (blockField w) (keyField w) := by simp [decode, h]

theorem decode_of_op10 {w : CommandWord} (h : opField w = 0b10#2) :
    decode w = .dec (blockField w) (keyField w) := by simp [decode, h]

theorem decode_of_op11 {w : CommandWord} (h : opField w = 0b11#2) :
    decode w = .srch (blockField w) := by simp [decode, h]

/-! ### A round in the direction of OPR (R77, R78) -/

/-- The round that follows round `i` of a command, none after its last. -/
def roundAfter : Operation → RoundIndex → Option RoundIndex
  | .enc => nextRound
  | .dec => previousRound
  | .srch => previousRound

/-- A ROUND step, said for all three commands at once. -/
theorem roundCycle_eq (s : State) :
    roundCycle s = advanceRound (setHalves s (stepOf s.opr (currentSubkey s) (s.l, s.r)))
      (roundAfter s.opr s.ri) := by
  unfold roundCycle
  cases s.opr <;> rfl

theorem roundCycle_of_some {s : State} {j : RoundIndex} (h : roundAfter s.opr s.ri = some j) :
    roundCycle s =
      { setHalves s (stepOf s.opr (currentSubkey s) (s.l, s.r)) with ri := j } := by
  rw [roundCycle_eq, h, advanceRound_some]

theorem roundCycle_of_none {s : State} (h : roundAfter s.opr s.ri = none) :
    roundCycle s =
      { setHalves s (stepOf s.opr (currentSubkey s) (s.l, s.r)) with phase := .emit } := by
  rw [roundCycle_eq, h, advanceRound_none]

/-- A round ends no command. -/
theorem roundCycle_busy {s : State} (h : s.phase ≠ .idle) : (roundCycle s).phase ≠ .idle := by
  cases ha : roundAfter s.opr s.ri with
  | some j => simpa [roundCycle_of_some ha] using h
  | none => simp [roundCycle_of_none ha]

theorem roundAfter_enc_of_lt {i : RoundIndex} (h : roundNumber i < 4) :
    ∃ j, roundAfter .enc i = some j ∧ roundNumber j = roundNumber i + 1 := by
  cases i with
  | one => exact ⟨.two, rfl, rfl⟩
  | two => exact ⟨.three, rfl, rfl⟩
  | three => exact ⟨.four, rfl, rfl⟩
  | four => exact absurd h (by decide)

theorem roundAfter_enc_last {i : RoundIndex} (h : roundNumber i = 4) :
    roundAfter .enc i = none := by
  cases i with
  | four => rfl
  | one | two | three => cases h

theorem roundAfter_of_ne_enc {op : Operation} (h : op ≠ .enc) : roundAfter op = previousRound := by
  cases op with
  | enc => exact absurd rfl h
  | dec => rfl
  | srch => rfl

theorem previousRound_of_gt {i : RoundIndex} (h : roundNumber i > 1) :
    ∃ j, previousRound i = some j ∧ roundNumber j + 1 = roundNumber i := by
  cases i with
  | one => exact absurd h (by decide)
  | two => exact ⟨.one, rfl, rfl⟩
  | three => exact ⟨.two, rfl, rfl⟩
  | four => exact ⟨.three, rfl, rfl⟩

theorem previousRound_last {i : RoundIndex} (h : roundNumber i = 1) : previousRound i = none := by
  cases i with
  | one => rfl
  | two | three | four => cases h

/-! ### Taking a record: the command ends, or a search goes on (R81, R91) -/

/-- ENC and DEC end when their record is taken, a search when that of key 511 is. -/
theorem emitCycle_ends {s : State} (h : s.opr = .srch → s.keyr = lastKey) :
    emitCycle s = emitSingle s := by
  unfold emitCycle
  cases hop : s.opr with
  | enc => rfl
  | dec => rfl
  | srch => exact if_pos (h hop)

/-- A search goes on with the next key. -/
theorem emitCycle_advances {s : State} (hop : s.opr = .srch) (hk : s.keyr ≠ lastKey) :
    emitCycle s = startRounds { emitRecord s with keyr := s.keyr + 1#9 } s.blkr .four := by
  simp [emitCycle, emitSearch, hop, hk]

theorem emitCycle_cases (s : State) :
    ((s.opr = .srch → s.keyr = lastKey) ∧ emitCycle s = emitSingle s) ∨
      (s.opr = .srch ∧ s.keyr ≠ lastKey ∧
        emitCycle s = startRounds { emitRecord s with keyr := s.keyr + 1#9 } s.blkr .four) := by
  by_cases h : s.opr = .srch → s.keyr = lastKey
  · exact .inl ⟨h, emitCycle_ends h⟩
  · obtain ⟨hop, hk⟩ := Classical.not_imp.mp h
    exact .inr ⟨hop, hk, emitCycle_advances hop hk⟩

theorem eq_lastKey_iff (k : MasterKey) : k = lastKey ↔ k.toNat = 511 := by
  rw [← BitVec.toNat_inj]; rfl

/-- Before key 511 the increment does not wrap. -/
theorem toNat_key_succ {k : MasterKey} (h : k ≠ lastKey) : (k + 1#9).toNat = k.toNat + 1 := by
  have hne : k.toNat ≠ 511 := mt (eq_lastKey_iff k).mpr h
  have hlt : k.toNat < 512 := k.isLt
  rw [BitVec.toNat_add, BitVec.toNat_ofNat]
  omega

/-! ### The datapath invariant (R23, R90) -/

theorem datapathInv_of_idle {s : State} (h : s.phase = .idle) : DatapathInv s := by
  simp [DatapathInv, h]

theorem datapathInv_round {s : State} (h : s.phase = .round) :
    DatapathInv s ↔ (s.l, s.r) = halvesAfter s (roundsBefore s.opr s.ri) := by
  simp [DatapathInv, h]

theorem datapathInv_emit {s : State} (h : s.phase = .emit) :
    DatapathInv s ↔ (s.l, s.r) = halvesAfter s (roundOrder s.opr) ∧
      (roundOrder s.opr).getLast? = some s.ri := by
  simp [DatapathInv, h]

/-- The invariant does not speak of the host's side. -/
theorem datapathInv_beginCycle {s : State} : DatapathInv (beginCycle s) ↔ DatapathInv s := Iff.rfl

/-- One more round. -/
theorem halvesAfter_concat (s : State) (is : List RoundIndex) (i : RoundIndex) :
    halvesAfter s (is ++ [i]) = stepOf s.opr (keySchedule s.keyr i) (halvesAfter s is) := by
  simp [halvesAfter]

/-- The next round's predecessors are this round's and this round. -/
theorem roundsBefore_roundAfter {op : Operation} {i j : RoundIndex}
    (h : roundAfter op i = some j) : roundsBefore op j = roundsBefore op i ++ [i] := by
  revert h
  cases op <;> cases i <;> cases j <;> decide

/-- The last round completes the order, and stands last in it. -/
theorem roundOrder_of_roundAfter_none {op : Operation} {i : RoundIndex}
    (h : roundAfter op i = none) :
    roundOrder op = roundsBefore op i ++ [i] ∧ (roundOrder op).getLast? = some i := by
  revert h
  cases op <;> cases i <;> decide

/-- A round carries the invariant from one RI to the next, or into EMIT. -/
theorem datapathInv_roundCycle {s : State} (hp : s.phase = .round) (hinv : DatapathInv s) :
    DatapathInv (roundCycle s) := by
  have hlr : (s.l, s.r) = halvesAfter s (roundsBefore s.opr s.ri) := (datapathInv_round hp).mp hinv
  have hnew : stepOf s.opr (currentSubkey s) (s.l, s.r) =
      halvesAfter s (roundsBefore s.opr s.ri ++ [s.ri]) := by
    rw [halvesAfter_concat, ← hlr]; rfl
  cases ha : roundAfter s.opr s.ri with
  | some j =>
    rw [roundCycle_of_some ha]
    refine (datapathInv_round ?_).mpr ?_
    · exact hp
    · exact hnew.trans (congrArg _ (roundsBefore_roundAfter ha).symm)
  | none =>
    obtain ⟨horder, hlast⟩ := roundOrder_of_roundAfter_none ha
    rw [roundCycle_of_none ha, datapathInv_emit rfl]
    exact ⟨hnew.trans (congrArg _ horder.symm), hlast⟩

/-- A trial that starts from BLKR at its command's first round meets the invariant. -/
theorem datapathInv_startRounds {s : State} {i : RoundIndex} (hfirst : roundsBefore s.opr i = []) :
    DatapathInv (startRounds s s.blkr i) := by
  rw [datapathInv_round rfl, startRounds_opr, startRounds_ri, hfirst]
  rfl

theorem datapathInv_loadCommand (s : State) {op : Operation} {i : RoundIndex} (block : Block)
    (key : MasterKey) (hfirst : roundsBefore op i = []) :
    DatapathInv (loadCommand s op key block i) :=
  datapathInv_startRounds (s := { s with opr := op, keyr := key, blkr := block }) hfirst

theorem datapathInv_loaded (i : Instr) {s : State} (hp : s.phase = .idle) :
    DatapathInv (loaded i s) := by
  cases i with
  | nop => exact datapathInv_of_idle hp
  | enc block key => exact datapathInv_loadCommand s block key rfl
  | dec block key => exact datapathInv_loadCommand s block key rfl
  | srch block => exact datapathInv_loadCommand s block 0#9 rfl

/-- Once a record is taken the engine is idle or at the start of a trial. -/
theorem datapathInv_emitCycle (s : State) : DatapathInv (emitCycle s) := by
  obtain ⟨_, he⟩ | ⟨hop, _, he⟩ := emitCycle_cases s
  · rw [he]
    exact datapathInv_of_idle rfl
  · rw [he]
    refine datapathInv_startRounds (s := { emitRecord s with keyr := s.keyr + 1#9 }) ?_
    simp only [emitRecord_opr, hop]
    rfl

theorem step_keeps_datapathInv {s t : State} (hinv : DatapathInv s) (h : step s = .next t) :
    DatapathInv t := by
  cases stepCase_of_step h with
  | reset _ => exact datapathInv_of_idle rfl
  | accept w _ hidle _ => exact datapathInv_loaded (decode w) hidle
  | idle _ _ _ => exact datapathInv_beginCycle.mpr hinv
  | round _ hround => exact datapathInv_roundCycle hround (datapathInv_beginCycle.mpr hinv)
  | taken _ _ _ => exact datapathInv_emitCycle _
  | held _ _ _ => exact datapathInv_beginCycle.mpr hinv

/-- A command's result for a block and a key. -/
def resultOf : Operation → Block → MasterKey → Block
  | .enc => encrypt
  | .dec => decrypt
  | .srch => decrypt

theorem resultOf_of_ne_enc {op : Operation} (h : op ≠ .enc) : resultOf op = decrypt := by
  cases op with
  | enc => exact absurd rfl h
  | dec => rfl
  | srch => rfl

/-- All rounds of a command make its result (R74, R75). -/
theorem joinPair_halvesAfter_roundOrder (s : State) :
    joinPair (halvesAfter s (roundOrder s.opr)) = resultOf s.opr s.blkr s.keyr := by
  unfold halvesAfter
  cases s.opr <;> rfl

/-- In EMIT the halves hold the command's result (R90). -/
theorem joinHalves_of_emit {s : State} (hinv : DatapathInv s) (hp : s.phase = .emit) :
    joinHalves s.l s.r = resultOf s.opr s.blkr s.keyr := by
  obtain ⟨hlr, _⟩ := (datapathInv_emit hp).mp hinv
  rw [← joinPair_halvesAfter_roundOrder, ← hlr]
  rfl

/-- Settles O42, by the cases of a step; the result by the invariant in EMIT. -/
theorem everyStepKeepsTheDatapathInvariant : Obligations.EveryStepKeepsTheDatapathInvariant := by
  refine ⟨fun s t => step_keeps_datapathInv, fun s hinv hp => ⟨fun hop => ?_, fun hop => ?_⟩⟩
  · exact (joinHalves_of_emit hinv hp).trans (by rw [hop]; rfl)
  · exact (joinHalves_of_emit hinv hp).trans (by rw [resultOf_of_ne_enc hop])

/-- Settles O41: the reset state is idle. -/
theorem resetMeetsTheDatapathInvariant : Obligations.ResetMeetsTheDatapathInvariant :=
  datapathInv_of_idle rfl

/-! ### A command in progress and its log (R23, R92, R114) -/

/-- A command stays in progress while OPR, BLKR, KEYR and the log stay and PHASE is not IDLE. -/
theorem inProgress_congr {base : List RecordWord} {i : Instr} {s t : State}
    (h : InProgress base i s) (hbusy : t.phase ≠ .idle) (hopr : t.opr = s.opr)
    (hblkr : t.blkr = s.blkr) (hkeyr : t.keyr = s.keyr) (hlog : t.outLog = s.outLog) :
    InProgress base i t := by
  refine ⟨hbusy, ?_⟩
  rw [hopr, hblkr, hkeyr, hlog]
  exact h.2

theorem inProgress_loaded {i : Instr} (s : State) (hi : i ≠ .nop) :
    InProgress s.outLog i (loaded i s) := by
  cases i with
  | nop => exact absurd rfl hi
  | enc block key => exact ⟨nofun, rfl, rfl, rfl, rfl⟩
  | dec block key => exact ⟨nofun, rfl, rfl, rfl, rfl⟩
  | srch block => exact ⟨nofun, rfl, rfl, (List.append_nil _).symm⟩

theorem search_getElem? (c : Block) {n : Nat} (h : n < 512) :
    (search c)[n]? = some (trial c n) := by
  simp [search, h]

/-- The trial of key `n` is the search's pair after the first `n` (R88). -/
theorem search_take_succ (c : Block) {n : Nat} (h : n < 512) :
    (search c).take (n + 1) = (search c).take n ++ [trial c n] := by
  rw [List.take_add_one, search_getElem? c h]
  rfl

theorem search_take_all (c : Block) : (search c).take 512 = search c := by simp [search]

/-- The record on offer in EMIT is the key with the command's result (R90). -/
theorem offeredRecord_of_emit {s : State} (hinv : DatapathInv s) (hp : s.phase = .emit) :
    offeredRecord s = packRecord s.keyr (resultOf s.opr s.blkr s.keyr) :=
  congrArg (packRecord s.keyr) (joinHalves_of_emit hinv hp)

/-- ENC and DEC end with their one record in the log (R82). -/
theorem emitCycle_single {s : State} (hinv : DatapathInv s) (hp : s.phase = .emit)
    (hop : s.opr ≠ .srch) :
    (emitCycle s).phase = .idle ∧
      (emitCycle s).outLog = s.outLog ++ [packRecord s.keyr (resultOf s.opr s.blkr s.keyr)] := by
  rw [emitCycle_ends fun h => absurd h hop, emitSingle_outLog, offeredRecord_of_emit hinv hp]
  exact ⟨rfl, rfl⟩

/-- In a search the record on offer is that of KEYR's trial (R89). -/
theorem offeredRecord_of_emit_srch {s : State} (hinv : DatapathInv s) (hp : s.phase = .emit)
    (hop : s.opr = .srch) : offeredRecord s = recordOfPair (trial s.blkr s.keyr.toNat) := by
  rw [offeredRecord_of_emit hinv hp, hop]
  simp [trial, recordOfPair, resultOf]

/-- The log after a search's record is taken: one record more. -/
theorem searchLog_taken {base : List RecordWord} {s : State} (hinv : DatapathInv s)
    (hp : s.phase = .emit) (hop : s.opr = .srch)
    (hlog : s.outLog = base ++ ((search s.blkr).take s.keyr.toNat).map recordOfPair) :
    s.outLog ++ [offeredRecord s] =
      base ++ ((search s.blkr).take (s.keyr.toNat + 1)).map recordOfPair := by
  rw [hlog, offeredRecord_of_emit_srch hinv hp hop, search_take_succ _ s.keyr.isLt,
    List.map_append, List.append_assoc]
  rfl

/-- Taking a record ends the command with all its records in the log, or starts a search's next
trial with one more. -/
theorem inProgress_emitCycle {base : List RecordWord} {i : Instr} {s : State}
    (h : InProgress base i s) (hinv : DatapathInv s) (hp : s.phase = .emit) :
    InProgress base i (emitCycle s) ∨
      ((emitCycle s).phase = .idle ∧ (emitCycle s).outLog = base ++ recordsOf i) := by
  cases i with
  | nop => exact h.2.elim
  | enc block key =>
    obtain ⟨_, hop, rfl, rfl, rfl⟩ := h
    have hend := emitCycle_single hinv hp (by simp [hop])
    rw [hop] at hend
    exact .inr hend
  | dec block key =>
    obtain ⟨_, hop, rfl, rfl, rfl⟩ := h
    have hend := emitCycle_single hinv hp (by simp [hop])
    rw [hop] at hend
    exact .inr hend
  | srch block =>
    obtain ⟨_, hop, rfl, hlog⟩ := h
    have hmore := searchLog_taken hinv hp hop hlog
    by_cases hk : s.keyr = lastKey
    · rw [emitCycle_ends fun _ => hk]
      refine .inr ⟨rfl, ?_⟩
      rw [emitSingle_outLog, hmore, (eq_lastKey_iff _).mp hk, search_take_all]
      rfl
    · rw [emitCycle_advances hop hk]
      refine .inl ⟨nofun, hop, rfl, ?_⟩
      simpa only [startRounds_outLog, startRounds_keyr, startRounds_blkr, emitRecord_outLog,
        toNat_key_succ hk] using hmore

/-- A cycle without reset keeps a command in progress or ends it with all its records (R92). -/
theorem inProgress_step {base : List RecordWord} {i : Instr} {s t : State}
    (h : InProgress base i s) (hinv : DatapathInv s) (hrst : (hostNow s).rst = false)
    (hstep : step s = .next t) :
    InProgress base i t ∨ (t.phase = .idle ∧ t.outLog = base ++ recordsOf i) := by
  obtain ⟨hbusy, _⟩ := id h
  cases stepCase_of_step hstep with
  | reset hr => exact absurd hr (by simp [hrst])
  | accept _ _ hidle _ => exact absurd hidle hbusy
  | idle _ hidle _ => exact absurd hidle hbusy
  | round _ hround =>
    obtain ⟨hopr, hkeyr, hblkr, hlog, _⟩ := roundCycle_frame (beginCycle s)
    exact .inl (inProgress_congr h (roundCycle_busy hbusy) hopr hblkr hkeyr hlog)
  | taken _ hemit _ =>
    exact inProgress_emitCycle (s := beginCycle s) h (datapathInv_beginCycle.mpr hinv) hemit
  | held _ hemit _ => exact .inl h

/-- While a command is in progress the log holds the first of its records and no others (R23 e). -/
theorem inProgress_firstRecords {base : List RecordWord} {i : Instr} {s : State}
    (h : InProgress base i s) : ∃ j, j ≤ 512 ∧ s.outLog = base ++ (recordsOf i).take j := by
  cases i with
  | nop => exact h.2.elim
  | enc block key =>
    obtain ⟨_, _, _, _, hlog⟩ := h
    exact ⟨0, by decide, by simpa using hlog⟩
  | dec block key =>
    obtain ⟨_, _, _, _, hlog⟩ := h
    exact ⟨0, by decide, by simpa using hlog⟩
  | srch block =>
    obtain ⟨_, _, _, hlog⟩ := h
    exact ⟨s.keyr.toNat, s.keyr.isLt.le, by rw [hlog, List.map_take]; rfl⟩

/-- Settles O43: acceptance loads the command, a cycle keeps or ends it, a reset leaves its log. -/
theorem commandInProgressKeepsItsLog : Obligations.CommandInProgressKeepsItsLog := by
  refine ⟨fun i s t hi hp h => ?_, fun base i s t h hinv hrst hstep => ?_,
    fun base i s t h hrst hstep => ?_⟩
  · obtain rfl : loaded i s = t := Host.Outcome.next.inj ((exec_of_idle i hp).symm.trans h)
    exact ⟨inProgress_loaded s hi, datapathInv_loaded i hp⟩
  · exact inProgress_step h hinv hrst hstep
  · obtain rfl := step_unique hstep (step_of_rst hrst)
    exact ⟨rfl, inProgress_firstRecords (s := s) h⟩

/-! ### No carry-over (R21, R22) -/

theorem sameOutside_of_eq {s t : State} (h : s = t) : SameOutside s t := by
  subst h
  exact ⟨rfl, rfl, rfl, rfl, rfl, rfl, fun _ => rfl⟩

theorem eq_of_sameOutside_of_busy {s t : State} (h : SameOutside s t) (hbusy : s.phase ≠ .idle) :
    s = t := by
  obtain ⟨_, _, _, _, _, _, heq⟩ := h
  exact heq hbusy

theorem hostNow_eq_of_sameOutside {s t : State} (h : SameOutside s t) : hostNow s = hostNow t := by
  obtain ⟨_, _, _, hscript, hrest, _⟩ := h
  simp only [hostNow, hscript, hrest]

theorem streamNow_eq_of_sameOutside {s t : State} (h : SameOutside s t) :
    streamNow s = streamNow t := by
  obtain ⟨_, _, hstream, _⟩ := id h
  simp only [streamNow, hostNow_eq_of_sameOutside h, hstream]

theorem offeredWord_eq_of_sameOutside {s t : State} (h : SameOutside s t) :
    offeredWord s = offeredWord t := by
  obtain ⟨_, _, hstream, _⟩ := id h
  simp only [offeredWord, hostNow_eq_of_sameOutside h, hstream]

/-- Between idle states only the log, the host's side and the counter have to agree. -/
theorem sameOutside_of_idle {s t : State} (hs : s.phase = .idle) (ht : t.phase = .idle)
    (hlog : s.outLog = t.outLog) (hstream : s.cmdStream = t.cmdStream)
    (hscript : s.hostScript = t.hostScript) (hrest : s.hostRest = t.hostRest)
    (hcount : s.freeCount = t.freeCount) : SameOutside s t :=
  ⟨hs.trans ht.symm, hlog, hstream, hscript, hrest, hcount, fun hb => absurd hs hb⟩

theorem sameOutside_beginCycle {s t : State} (h : SameOutside s t) :
    SameOutside (beginCycle s) (beginCycle t) := by
  obtain ⟨hphase, hlog, _, hscript, hrest, hcount, heq⟩ := id h
  exact ⟨hphase, hlog, streamNow_eq_of_sameOutside h, congrArg List.tail hscript, hrest, hcount,
    fun hb => congrArg beginCycle (heq hb)⟩

theorem sameOutside_popCommand {s t : State} (h : SameOutside s t) :
    SameOutside (popCommand s) (popCommand t) := by
  obtain ⟨hphase, hlog, hstream, hscript, hrest, hcount, heq⟩ := h
  exact ⟨hphase, hlog, congrArg List.tail hstream, hscript, hrest, hcount,
    fun hb => congrArg popCommand (heq hb)⟩

/-- After a reset cycle both are idle, so the free values cannot tell them apart. -/
theorem sameOutside_resetCycle {s t : State} (h : SameOutside s t) :
    SameOutside (resetCycle s) (resetCycle t) := by
  obtain ⟨_, hlog, hstream, hscript, hrest, hcount, _⟩ := h
  exact sameOutside_of_idle rfl rfl hlog hstream hscript hrest (congrArg (· + 1) hcount)

/-- A command that is loaded writes every register, so nothing of the old ones is left (R22). -/
theorem loadCommand_eq_of_sameOutside {s t : State} (h : SameOutside s t) (op : Operation)
    (key : MasterKey) (block : Block) (i : RoundIndex) :
    loadCommand s op key block i = loadCommand t op key block i := by
  obtain ⟨_, hlog, hstream, hscript, hrest, hcount, _⟩ := h
  simp only [loadCommand, startRounds, hlog, hstream, hscript, hrest, hcount]

theorem sameOutside_loaded {s t : State} (h : SameOutside s t) (i : Instr) :
    SameOutside (loaded i s) (loaded i t) := by
  have hload := loadCommand_eq_of_sameOutside h
  cases i with
  | nop => exact h
  | enc block key => exact sameOutside_of_eq (hload .enc key block .one)
  | dec block key => exact sameOutside_of_eq (hload .dec key block .four)
  | srch block => exact sameOutside_of_eq (hload .srch 0#9 block .four)

/-- One step keeps two states alike: equal while busy; while idle nothing reads the registers. -/
theorem sameOutside_step {s t : State} (h : SameOutside s t) :
    ∃ s' t', step s = .next s' ∧ step t = .next t' ∧ SameOutside s' t' := by
  obtain ⟨s', hs, hcase⟩ := exists_step s
  by_cases hp : s.phase = .idle
  · obtain ⟨hphase, _⟩ := id h
    have hpt : t.phase = .idle := hphase.symm.trans hp
    have hnow := hostNow_eq_of_sameOutside h
    have hoffer := offeredWord_eq_of_sameOutside h
    have hbegin := sameOutside_beginCycle h
    cases hcase with
    | reset hrst => exact ⟨_, _, hs, step_of_rst (hnow ▸ hrst), sameOutside_resetCycle hbegin⟩
    | accept w hrst _ hw =>
      exact ⟨_, _, hs, step_of_accept (hnow ▸ hrst) hpt (hoffer ▸ hw) rfl,
        sameOutside_loaded (sameOutside_popCommand hbegin) _⟩
    | idle hrst _ hw => exact ⟨_, _, hs, step_of_idle_hold (hnow ▸ hrst) hpt (hoffer ▸ hw), hbegin⟩
    | round _ hround => exact absurd (hp.symm.trans hround) nofun
    | taken _ hemit _ => exact absurd (hp.symm.trans hemit) nofun
    | held _ hemit _ => exact absurd (hp.symm.trans hemit) nofun
  · obtain rfl := eq_of_sameOutside_of_busy h hp
    exact ⟨s', s', hs, hs, sameOutside_of_eq rfl⟩

theorem sameOutside_run (n : Nat) {s t : State} (h : SameOutside s t) :
    ∃ s' t', run n s = .next s' ∧ run n t = .next t' ∧ SameOutside s' t' := by
  induction n generalizing s t with
  | zero => exact ⟨s, t, run_zero s, run_zero t, h⟩
  | succ n ih =>
    obtain ⟨s₁, t₁, hs, ht, h₁⟩ := sameOutside_step h
    obtain ⟨s', t', hs', ht', h'⟩ := ih h₁
    exact ⟨s', t', (run_succ_of_step hs).trans hs', (run_succ_of_step ht).trans ht', h'⟩

theorem busy_eq_of_sameOutside {s t : State} (h : SameOutside s t) : busy s = busy t := by
  obtain ⟨hphase, _⟩ := h
  simp only [busy, hphase]

/-- The port shows registers only in EMIT, where the states are equal. -/
theorem outPort_eq_of_sameOutside {s t : State} (h : SameOutside s t) : outPort s = outPort t := by
  by_cases hp : s.phase = .idle
  · obtain ⟨hphase, _⟩ := h
    simp [outPort, outValid, hp, ← hphase]
  · exact congrArg outPort (eq_of_sameOutside_of_busy h hp)

/-- Settles O49, by induction on the number of steps. -/
theorem noCarryOverBetweenCommands : Obligations.NoCarryOverBetweenCommands := by
  intro n s t h
  obtain ⟨s', t', hs, ht, h'⟩ := sameOutside_run n h
  obtain ⟨_, hlog, _⟩ := id h'
  exact ⟨s', t', hs, ht, h', hlog, busy_eq_of_sameOutside h', outPort_eq_of_sameOutside h'⟩

/-! ### The transition table, the log and the registers (R12 to R16, R20, R24) -/

/-- The rows of PHASE = ROUND: the next round, or EMIT after the last (R77, R78). -/
theorem roundCycle_next {s : State} (hp : s.phase = .round) {j : RoundIndex}
    (h : roundAfter s.opr s.ri = some j) :
    (roundCycle s).phase = .round ∧ (roundCycle s).ri = j := by
  rw [roundCycle_of_some h]
  exact ⟨hp, rfl⟩

theorem roundCycle_last {s : State} (h : roundAfter s.opr s.ri = none) :
    (roundCycle s).phase = .emit := by
  rw [roundCycle_of_none h]

/-- Settles O32, row by row: the step's equation in the row, and where that state is. -/
theorem stepFollowsTheTransitionTable : Obligations.StepFollowsTheTransitionTable := by
  intro s hrst
  obtain ⟨t, ht, -⟩ := exists_step s
  refine ⟨t, ht, ?idleHold, ?nop, ?enc, ?dec, ?srch, ?encRound, ?encLast, ?decRound, ?decLast,
    ?held, ?single, ?advance, ?lastKey⟩
  case idleHold =>
    intro hp hw
    rw [step_unique ht (step_of_idle_hold hrst hp hw)]
    exact hp
  case nop =>
    intro w hp hw hop
    rw [step_unique ht (step_of_accept hrst hp hw (decode_of_op00 hop))]
    exact hp
  case enc =>
    intro w hp hw hop
    rw [step_unique ht (step_of_accept hrst hp hw (decode_of_op01 hop))]
    exact ⟨rfl, rfl, rfl⟩
  case dec =>
    intro w hp hw hop
    rw [step_unique ht (step_of_accept hrst hp hw (decode_of_op10 hop))]
    exact ⟨rfl, rfl, rfl⟩
  case srch =>
    intro w hp hw hop
    rw [step_unique ht (step_of_accept hrst hp hw (decode_of_op11 hop))]
    exact ⟨rfl, rfl, rfl, rfl⟩
  case encRound =>
    intro hp hop hri
    obtain ⟨j, hj, hnum⟩ := roundAfter_enc_of_lt hri
    obtain ⟨hphase, hnext⟩ := roundCycle_next (s := beginCycle s) hp (hop ▸ hj)
    rw [step_unique ht (step_of_round hrst hp)]
    exact ⟨hphase, hnext ▸ hnum⟩
  case encLast =>
    intro hp hop hri
    rw [step_unique ht (step_of_round hrst hp)]
    exact roundCycle_last (s := beginCycle s) (hop ▸ roundAfter_enc_last hri)
  case decRound =>
    intro hp hop hri
    obtain ⟨j, hj, hnum⟩ := previousRound_of_gt hri
    obtain ⟨hphase, hnext⟩ :=
      roundCycle_next (s := beginCycle s) hp (roundAfter_of_ne_enc hop ▸ hj)
    rw [step_unique ht (step_of_round hrst hp)]
    exact ⟨hphase, hnext ▸ hnum⟩
  case decLast =>
    intro hp hop hri
    rw [step_unique ht (step_of_round hrst hp)]
    exact roundCycle_last (s := beginCycle s) (roundAfter_of_ne_enc hop ▸ previousRound_last hri)
  case held =>
    intro hp hready
    rw [step_unique ht (step_of_emit_hold hrst hp hready)]
    exact hp
  case single =>
    intro hp hready hop
    rw [step_unique ht (step_of_emit_taken hrst hp hready),
      emitCycle_ends (s := beginCycle s) fun h => absurd h hop]
    rfl
  case advance =>
    intro hp hready hop hlt
    have hk : s.keyr ≠ lastKey := fun h => hlt.ne ((eq_lastKey_iff _).mp h)
    rw [step_unique ht (step_of_emit_taken hrst hp hready),
      emitCycle_advances (s := beginCycle s) hop hk]
    exact ⟨rfl, rfl, toNat_key_succ hk⟩
  case lastKey =>
    intro hp hready _ hk
    rw [step_unique ht (step_of_emit_taken hrst hp hready),
      emitCycle_ends (s := beginCycle s) fun _ => (eq_lastKey_iff _).mpr hk]
    rfl

theorem outValid_iff (s : State) : outValid s = true ↔ s.phase = .emit := decide_eq_true_iff

theorem busy_iff (s : State) : busy s = true ↔ s.phase ≠ .idle := decide_eq_true_iff

theorem cmdReady_iff (s : State) (rst : Bool) :
    cmdReady s rst = true ↔ s.phase = .idle ∧ rst = false := by simp [cmdReady]

/-- In EMIT the port carries the record on offer (R36). -/
theorem outPort_of_outValid {s : State} (h : outValid s = true) :
    outPort s = some (offeredRecord s) := if_pos h

/-- A step other than the taking of a record leaves the log. -/
theorem stepCase_outLog_of_not_taken {s t : State} (h : StepCase s t)
    (hnot : ¬ (outValid s = true ∧ (hostNow s).outReady = true ∧ (hostNow s).rst = false)) :
    t.outLog = s.outLog := by
  cases h with
  | reset _ => rfl
  | accept w _ _ _ =>
    obtain ⟨hlog, _⟩ := loaded_frame (decode w) (popCommand (beginCycle s))
    exact hlog
  | idle _ _ _ => rfl
  | round _ _ =>
    obtain ⟨_, _, _, hlog, _⟩ := roundCycle_frame (beginCycle s)
    exact hlog
  | taken hrst hemit hready => exact absurd ⟨(outValid_iff s).mpr hemit, hready, hrst⟩ hnot
  | held _ _ _ => rfl

/-- Settles O38: the taken record is the port's word, and no other case of a step writes the log. -/
theorem logGrowsOnlyByTakenRecords : Obligations.LogGrowsOnlyByTakenRecords := by
  intro s
  obtain ⟨t, ht, hcase⟩ := exists_step s
  refine ⟨t, ht, fun ⟨hvalid, hready, hrst⟩ => ?_, stepCase_outLog_of_not_taken hcase⟩
  rw [step_unique ht (step_of_emit_taken hrst ((outValid_iff s).mp hvalid) hready)]
  obtain ⟨hlog, _⟩ := emitCycle_frame (beginCycle s)
  exact ⟨_, outPort_of_outValid hvalid, hlog⟩

/-- A taken record moves KEYR only when a search goes on, and then by one. -/
theorem emitCycle_keyr (s : State) :
    (emitCycle s).keyr = s.keyr ∨
      (s.opr = .srch ∧ (emitCycle s).keyr.toNat = s.keyr.toNat + 1) := by
  obtain ⟨_, he⟩ | ⟨hop, hk, he⟩ := emitCycle_cases s
  · exact .inl (by rw [he, emitSingle_keyr])
  · exact .inr ⟨hop, by rw [he]; exact toNat_key_succ hk⟩

/-- What a step without reset does to OPR, BLKR and KEYR of a busy engine (R12, R13, R15). -/
theorem stepCase_busy_registers {s t : State} (h : StepCase s t) (hbusy : s.phase ≠ .idle)
    (hrst : (hostNow s).rst = false) :
    t.opr = s.opr ∧ t.blkr = s.blkr ∧
      (t.keyr = s.keyr ∨ (s.opr = .srch ∧ s.phase = .emit ∧ (hostNow s).outReady = true ∧
        t.keyr.toNat = s.keyr.toNat + 1)) := by
  cases h with
  | reset hr => exact absurd hr (by simp [hrst])
  | accept _ _ hidle _ => exact absurd hidle hbusy
  | idle _ hidle _ => exact absurd hidle hbusy
  | round _ _ =>
    obtain ⟨hopr, hkeyr, hblkr, _⟩ := roundCycle_frame (beginCycle s)
    exact ⟨hopr, hblkr, .inl hkeyr⟩
  | taken _ hemit hready =>
    obtain ⟨_, hopr, hblkr, _⟩ := emitCycle_frame (beginCycle s)
    refine ⟨hopr, hblkr, (emitCycle_keyr (beginCycle s)).imp id ?_⟩
    exact fun ⟨hop, hkeyr⟩ => ⟨hop, hemit, hready, hkeyr⟩
  | held _ _ _ => exact ⟨rfl, rfl, .inl rfl⟩

/-- Settles O40, by the cases of a step of a busy engine. -/
theorem keyAndBlockHoldDuringACommand : Obligations.KeyAndBlockHoldDuringACommand := by
  intro s hbusy hrst
  obtain ⟨t, ht, hcase⟩ := exists_step s
  obtain ⟨hopr, hblkr, hkeyr⟩ := stepCase_busy_registers hcase hbusy hrst
  refine ⟨t, ht, hopr, hblkr, fun hop => ?_, fun hmoved => hkeyr.resolve_left hmoved⟩
  exact hkeyr.resolve_right fun ⟨hsrch, _⟩ => hop hsrch

/-- Settles O18, by the reset state's fields. -/
theorem resetStateIsIdleAndQuiet : Obligations.ResetStateIsIdleAndQuiet :=
  ⟨rfl, rfl, rfl, rfl, rfl, rfl, rfl⟩

/-- Settles O21: the hold in IDLE only uses the cycle up. -/
theorem idleEngineHoldsWithoutACommand : Obligations.IdleEngineHoldsWithoutACommand :=
  fun _ hp hrst hw => step_of_idle_hold hrst hp hw

/-- Settles O24: the outputs' equations, and that EMIT and IDLE differ. -/
theorem statusOutputsFollowThePhase : Obligations.StatusOutputsFollowThePhase := by
  refine fun s => ⟨busy_iff s, outValid_iff s, cmdReady_iff s, fun hvalid => ?_,
    fun rst hready => ?_⟩
  · rw [busy_iff, (outValid_iff s).mp hvalid]
    nofun
  · obtain ⟨hp, _⟩ := (cmdReady_iff s rst).mp hready
    simp [busy, hp]

end Sys2Proof.Machine
end


section
/-! The command and record channels (20_memory.md): what a step does to the command stream and to the
log the host is still owed, and the run of an eager host to the end of its stream. -/

namespace Sys2Proof.Machine

/-! ### The log the host is owed (R36, R37) -/

theorem pendingRecords_of_idle {s : State} (h : s.phase = .idle) : pendingRecords s = [] := by
  simp [pendingRecords, h]

/-- A busy ENC or DEC owes its one record. -/
theorem pendingRecords_of_busy_single {s : State} (hbusy : s.phase ≠ .idle) (hop : s.opr ≠ .srch) :
    pendingRecords s = [packRecord s.keyr (resultOf s.opr s.blkr s.keyr)] := by
  unfold pendingRecords
  cases hp : s.phase with
  | idle => exact absurd hp hbusy
  | round | emit =>
    cases hopr : s.opr with
    | enc => rfl
    | dec => rfl
    | srch => exact absurd hopr hop

/-- A busy search owes the trials from KEYR on. -/
theorem pendingRecords_of_busy_srch {s : State} (hbusy : s.phase ≠ .idle) (hop : s.opr = .srch) :
    pendingRecords s = ((search s.blkr).drop s.keyr.toNat).map recordOfPair := by
  unfold pendingRecords
  cases hp : s.phase with
  | idle => exact absurd hp hbusy
  | round | emit => simp only [hop]

/-- What a busy engine owes depends on OPR, BLKR and KEYR alone. -/
theorem pendingRecords_congr {s t : State} (hs : s.phase ≠ .idle) (ht : t.phase ≠ .idle)
    (hopr : t.opr = s.opr) (hblkr : t.blkr = s.blkr) (hkeyr : t.keyr = s.keyr) :
    pendingRecords t = pendingRecords s := by
  by_cases hop : s.opr = .srch
  · rw [pendingRecords_of_busy_srch hs hop, pendingRecords_of_busy_srch ht (hopr.trans hop), hblkr,
      hkeyr]
  · rw [pendingRecords_of_busy_single hs hop,
      pendingRecords_of_busy_single ht (fun h => hop (hopr.symm.trans h)), hopr, hblkr, hkeyr]

/-- The trial of key `n` is the first of those still to come (R88). -/
theorem search_drop_eq_cons (c : Block) {n : Nat} (h : n < 512) :
    (search c).drop n = trial c n :: (search c).drop (n + 1) := by
  obtain ⟨hlen, hget⟩ := List.getElem?_eq_some_iff.mp (search_getElem? c h)
  rw [List.drop_eq_getElem_cons hlen, hget]

theorem search_drop_all (c : Block) : (search c).drop 512 = [] := by simp [search]

/-- The record on offer is the first of those the command still owes (R90). -/
theorem pendingRecords_of_emit_srch {s : State} (hinv : DatapathInv s) (hp : s.phase = .emit)
    (hop : s.opr = .srch) :
    pendingRecords s =
      offeredRecord s :: ((search s.blkr).drop (s.keyr.toNat + 1)).map recordOfPair := by
  rw [pendingRecords_of_busy_srch (by simp [hp]) hop, search_drop_eq_cons _ s.keyr.isLt,
    offeredRecord_of_emit_srch hinv hp hop]
  rfl

/-- An accepted command owes all its records (R53). -/
theorem owedLog_loaded (i : Instr) {s : State} (hp : s.phase = .idle) :
    owedLog (loaded i s) = s.outLog ++ recordsOf i := by
  cases i with
  | nop => exact congrArg (s.outLog ++ ·) (pendingRecords_of_idle hp)
  | enc block key => rfl
  | dec block key => rfl
  | srch block => rfl

theorem owedLog_roundCycle {s : State} (hbusy : s.phase ≠ .idle) :
    owedLog (roundCycle s) = owedLog s := by
  obtain ⟨hopr, hkeyr, hblkr, hlog, _⟩ := roundCycle_frame s
  rw [owedLog, owedLog, hlog, pendingRecords_congr hbusy (roundCycle_busy hbusy) hopr hblkr hkeyr]

/-- Taking a record moves it from what is owed to the log (R36). -/
theorem owedLog_emitCycle {s : State} (hinv : DatapathInv s) (hp : s.phase = .emit) :
    owedLog (emitCycle s) = owedLog s := by
  have hbusy : s.phase ≠ .idle := by simp [hp]
  obtain ⟨hlast, he⟩ | ⟨hop, hk, he⟩ := emitCycle_cases s
  · have hone : pendingRecords s = [offeredRecord s] := by
      by_cases hop : s.opr = .srch
      · rw [pendingRecords_of_emit_srch hinv hp hop, (eq_lastKey_iff _).mp (hlast hop),
          search_drop_all]
        rfl
      · rw [pendingRecords_of_busy_single hbusy hop, offeredRecord_of_emit hinv hp]
    rw [owedLog, owedLog, he, pendingRecords_of_idle (emitSingle_phase s), emitSingle_outLog, hone,
      List.append_nil]
  · have hnext : pendingRecords (emitCycle s) =
        ((search s.blkr).drop (s.keyr.toNat + 1)).map recordOfPair := by
      rw [he, ← toNat_key_succ hk]
      exact pendingRecords_of_busy_srch (by simp) hop
    obtain ⟨hlog, _⟩ := emitCycle_frame s
    rw [owedLog, owedLog, hnext, hlog, pendingRecords_of_emit_srch hinv hp hop, List.append_assoc]
    rfl

theorem streamNow_eq_cons {s : State} {w : CommandWord} (h : offeredWord s = some w) :
    streamNow s = w :: (streamNow s).tail :=
  List.eq_cons_of_mem_head? (offeredWord_eq_head s w h)

theorem recordsOfStream_cons (w : CommandWord) (ws : List CommandWord) :
    recordsOfStream (w :: ws) = recordsOf (decode w) ++ recordsOfStream ws := List.flatMap_cons

/-- An accepted word's records move from the stream's to those of the command in progress. -/
theorem owedLog_accept {s : State} {w : CommandWord} (hp : s.phase = .idle)
    (hw : offeredWord s = some w) :
    owedLog (loaded (decode w) (popCommand (beginCycle s))) ++ recordsOfStream (streamNow s).tail =
      owedLog s ++ recordsOfStream (streamNow s) := by
  have hstream : recordsOfStream (streamNow s) =
      recordsOf (decode w) ++ recordsOfStream (streamNow s).tail :=
    (congrArg recordsOfStream (streamNow_eq_cons hw)).trans (recordsOfStream_cons _ _)
  have howed : owedLog s = s.outLog := by
    rw [owedLog, pendingRecords_of_idle hp, List.append_nil]
  rw [owedLog_loaded (decode w) (s := popCommand (beginCycle s)) hp, hstream, howed, List.append_assoc]
  rfl

/-- The log as it will stand is kept by every cycle without reset (R37). -/
theorem step_keeps_owedRecords {s t : State} (hinv : DatapathInv s)
    (hrst : (hostNow s).rst = false) (h : step s = .next t) :
    owedLog t ++ recordsOfStream t.cmdStream = owedLog s ++ recordsOfStream (streamNow s) := by
  cases stepCase_of_step h with
  | reset hr => exact absurd hr (by simp [hrst])
  | accept w _ hidle hw =>
    obtain ⟨_, hstream, _⟩ := loaded_frame (decode w) (popCommand (beginCycle s))
    rw [hstream]
    exact owedLog_accept hidle hw
  | idle _ _ _ => rfl
  | round _ hround =>
    have hbusy : (beginCycle s).phase ≠ .idle := by simp [hround]
    obtain ⟨_, _, _, _, hstream, _⟩ := roundCycle_frame (beginCycle s)
    rw [owedLog_roundCycle hbusy, hstream]
    rfl
  | taken _ hemit _ =>
    obtain ⟨_, _, _, hstream, _⟩ := emitCycle_frame (beginCycle s)
    rw [owedLog_emitCycle (datapathInv_beginCycle.mpr hinv) hemit, hstream]
    rfl
  | held _ _ _ => rfl

/-- Settles O44, by the cases of a step: a record moves from the stream to what is owed, and from
there to the log. -/
theorem noRecordLostOrRepeated : Obligations.NoRecordLostOrRepeated :=
  fun _ _ => step_keeps_owedRecords

/-! ### The host's side of a step (R35, R41, R116) -/

theorem cmdReady_of_busy {s : State} (rst : Bool) (h : s.phase ≠ .idle) :
    cmdReady s rst = false := by
  rw [Bool.eq_false_iff, ne_eq, cmdReady_iff]
  exact fun ⟨hidle, _⟩ => h hidle

/-- What a step does to the stream: it loses its head exactly when a command is accepted. -/
theorem stepCase_cmdStream {s t : State} (h : StepCase s t) :
    t.cmdStream =
      if cmdReady s (hostNow s).rst = true ∧ offeredWord s ≠ none then (streamNow s).tail
      else streamNow s := by
  cases h with
  | reset hrst => simp [cmdReady_iff, hrst]
  | accept w hrst hidle hw =>
    obtain ⟨_, hstream, _⟩ := loaded_frame (decode w) (popCommand (beginCycle s))
    simp [hstream, cmdReady_iff, hrst, hidle, hw]
  | idle _ _ hw => simp [hw]
  | round _ hround =>
    obtain ⟨_, _, _, _, hstream, _⟩ := roundCycle_frame (beginCycle s)
    simp [hstream, cmdReady_iff, hround]
  | taken _ hemit _ =>
    obtain ⟨_, _, _, hstream, _⟩ := emitCycle_frame (beginCycle s)
    simp [hstream, cmdReady_iff, hemit]
  | held _ hemit _ => simp [cmdReady_iff, hemit]

/-- A busy engine accepts nothing. -/
theorem stepCase_cmdStream_of_busy {s t : State} (h : StepCase s t) (hbusy : s.phase ≠ .idle) :
    t.cmdStream = streamNow s := by
  rw [stepCase_cmdStream h, cmdReady_of_busy _ hbusy]
  exact if_neg nofun

/-- The script loses its cycle, the rest stays, and a reset cycle alone moves the counter. -/
theorem stepCase_host {s t : State} (h : StepCase s t) :
    t.hostScript = s.hostScript.tail ∧ t.hostRest = s.hostRest ∧
      t.freeCount = if (hostNow s).rst then s.freeCount + 1 else s.freeCount := by
  cases h with
  | reset hrst => simp [hrst]
  | accept w hrst _ _ =>
    obtain ⟨_, _, hframe⟩ := loaded_frame (decode w) (popCommand (beginCycle s))
    simpa [hrst] using hframe
  | idle hrst _ _ => simp [hrst]
  | round hrst _ =>
    obtain ⟨_, _, _, _, _, hframe⟩ := roundCycle_frame (beginCycle s)
    simpa [hrst] using hframe
  | taken hrst _ _ =>
    obtain ⟨_, _, _, _, hframe⟩ := emitCycle_frame (beginCycle s)
    simpa [hrst] using hframe
  | held hrst _ _ => simp [hrst]

/-- Settles O23, by the cases of a step and the frame of each. -/
theorem stepFrameOfTheHostSide : Obligations.StepFrameOfTheHostSide := by
  intro s t h
  have hcase := stepCase_of_step h
  obtain ⟨hscript, hrest, hcount⟩ := stepCase_host hcase
  exact ⟨hscript, hrest, stepCase_cmdStream hcase, hcount⟩

/-- Settles O22: a busy engine runs no command and accepts none. -/
theorem busyEngineLetsCommandsWait : Obligations.BusyEngineLetsCommandsWait := by
  refine ⟨fun i s hbusy => exec_of_busy i hbusy, fun s hbusy => ?_⟩
  obtain ⟨t, ht, hcase⟩ := exists_step s
  exact ⟨t, ht, stepCase_cmdStream_of_busy hcase hbusy⟩

/-- Settles O20: the step's equation at an acceptance. -/
theorem stepRunsTheAcceptedCommand : Obligations.StepRunsTheAcceptedCommand :=
  fun _ _ hp hrst hw => step_of_idle_offer hrst hp hw

/-! ### The command port does not reach a command in progress (R39) -/

/-- A round neither reads nor writes the stream. -/
theorem roundCycle_withStream (s : State) (ws : List CommandWord) :
    roundCycle { s with cmdStream := ws } = { roundCycle s with cmdStream := ws } := by
  cases ha : roundAfter s.opr s.ri with
  | some j => rw [roundCycle_of_some ha, roundCycle_of_some (s := { s with cmdStream := ws }) ha]; rfl
  | none => rw [roundCycle_of_none ha, roundCycle_of_none (s := { s with cmdStream := ws }) ha]; rfl

/-- The taking of a record neither reads nor writes the stream. -/
theorem emitCycle_withStream (s : State) (ws : List CommandWord) :
    emitCycle { s with cmdStream := ws } = { emitCycle s with cmdStream := ws } := by
  obtain ⟨hlast, he⟩ | ⟨hop, hk, he⟩ := emitCycle_cases s
  · rw [he, emitCycle_ends (s := { s with cmdStream := ws }) hlast]; rfl
  · rw [he, emitCycle_advances (s := { s with cmdStream := ws }) hop hk]; rfl

/-- Two busy states that differ in the command stream and the cycle's command drive alone: the step
of one is the step of the other but for the stream. -/
theorem step_of_commandPort_changed {s s' : State} (hbusy : s.phase ≠ .idle)
    (hrst : (hostNow s').rst = (hostNow s).rst)
    (hready : (hostNow s').outReady = (hostNow s).outReady)
    (hbegin : beginCycle s' = { beginCycle s with cmdStream := streamNow s' }) :
    ∃ t t', step s = .next t ∧ step s' = .next t' ∧ t' = { t with cmdStream := t'.cmdStream } := by
  obtain ⟨t, ht, hcase⟩ := exists_step s
  have hphase : s'.phase = s.phase := (congrArg State.phase hbegin :)
  refine ⟨t, { t with cmdStream := streamNow s' }, ht, ?_, rfl⟩
  cases hcase with
  | reset hr => rw [step_of_rst (hrst.trans hr), hbegin]; rfl
  | accept _ _ hidle _ => exact absurd hidle hbusy
  | idle _ hidle _ => exact absurd hidle hbusy
  | round hr hround =>
    rw [step_of_round (hrst.trans hr) (hphase.trans hround), hbegin, roundCycle_withStream]
  | taken hr hemit ho =>
    rw [step_of_emit_taken (hrst.trans hr) (hphase.trans hemit) (hready.trans ho), hbegin,
      emitCycle_withStream]
  | held hr hemit ho =>
    rw [step_of_emit_hold (hrst.trans hr) (hphase.trans hemit) (hready.trans ho), hbegin]

/-- Settles O26: both changes leave `rst`, `out_ready` and all of the begun cycle but the stream. -/
theorem commandInProgressIgnoresTheCommandPort :
    Obligations.CommandInProgressIgnoresTheCommandPort := by
  refine fun s hbusy => ⟨fun ws => step_of_commandPort_changed hbusy rfl rfl rfl,
    fun c cs d hscript => ?_⟩
  have hnow : hostNow s = c := by simp [hostNow, hscript]
  refine step_of_commandPort_changed hbusy (by rw [hnow]; rfl) (by rw [hnow]; rfl) ?_
  simp only [beginCycle, hscript, List.tail_cons]

/-! ### The record on the port (R36, R52, R112, R118) -/

theorem recordKey_packRecord (key : MasterKey) (block : Block) :
    recordKey (packRecord key block) = key := BitVec.extractLsb'_append_eq_left

theorem recordBlock_packRecord (key : MasterKey) (block : Block) :
    recordBlock (packRecord key block) = block := BitVec.extractLsb'_append_eq_right

/-- Bits 11:6 of a record are the left half of its block. -/
theorem packRecord_bits_11_6 (key : MasterKey) (block : Block) :
    (packRecord key block).extractLsb' 6 6 = leftHalf block :=
  BitVec.extractLsb'_append_eq_of_add_le (by decide)

/-- Bits 5:0 of a record are the right half of its block. -/
theorem packRecord_bits_5_0 (key : MasterKey) (block : Block) :
    (packRecord key block).extractLsb' 0 6 = rightHalf block :=
  BitVec.extractLsb'_append_eq_of_add_le (by decide)

/-- Settles O25: the port's word by its fields, and the hold in EMIT. -/
theorem recordIsHeldUntilTaken : Obligations.RecordIsHeldUntilTaken := by
  refine fun s hp => ⟨⟨offeredRecord s, outPort_of_outValid ((outValid_iff s).mpr hp), ?_⟩,
    fun hrst hready => ⟨_, step_of_emit_hold hrst hp hready, rfl, rfl, ?_⟩⟩
  · have hkey : recordKey (offeredRecord s) = s.keyr := recordKey_packRecord _ _
    exact ⟨hkey, (packRecord_bits_11_6 _ _).trans (leftHalf_joinHalves _ _),
      (packRecord_bits_5_0 _ _).trans (rightHalf_joinHalves _ _), hkey, recordBlock_packRecord _ _⟩
  · exact (busy_iff _).mpr (by simp [hp])

/-- Settles O39, by induction on the number of steps: each holds the engine as it is. -/
theorem untakenRecordHoldsTheEngine : Obligations.UntakenRecordHoldsTheEngine := by
  intro n
  induction n with
  | zero =>
    intro s hp _ _ _
    exact ⟨s, run_zero s, hp, rfl, rfl, (busy_iff s).mpr (by simp [hp])⟩
  | succ n ih =>
    intro s hp hscript hrst hready
    have hnow : hostNow s = s.hostRest := hostNow_nil hscript
    have hstep : step s = .next (beginCycle s) :=
      step_of_emit_hold (hnow ▸ hrst) hp (hnow ▸ hready)
    obtain ⟨t, ht, hrest⟩ := ih (beginCycle s) hp (congrArg List.tail hscript) hrst hready
    exact ⟨t, (run_succ_of_step hstep).trans ht, hrest⟩

/-! ### The eager host (R86, R123, R126) -/

theorem hostNow_of_eagerHost {s : State} (h : EagerHost s) : hostNow s = .eager := by
  obtain ⟨hscript, hrest⟩ := h
  exact (hostNow_nil hscript).trans hrest

theorem streamNow_of_eagerHost {s : State} (h : EagerHost s) : streamNow s = s.cmdStream := by
  simp [streamNow, hostNow_of_eagerHost h, HostCycle.eager]

theorem offeredWord_of_eagerHost {s : State} (h : EagerHost s) :
    offeredWord s = s.cmdStream.head? := by
  simp [offeredWord, hostNow_of_eagerHost h, HostCycle.eager]

theorem eagerHost_step {s t : State} (he : EagerHost s) (h : step s = .next t) : EagerHost t := by
  obtain ⟨hscript, hrest⟩ := he
  obtain ⟨hscript', hrest', _⟩ := stepCase_host (stepCase_of_step h)
  exact ⟨by rw [hscript', hscript]; rfl, hrest'.trans hrest⟩

/-- The steps a search takes after the trial in progress: five for each key left (R86). -/
def laterTrialSteps (s : State) : Nat := if s.opr = .srch then 5 * (511 - s.keyr.toNat) else 0

theorem stepsLeft_of_idle {s : State} (h : s.phase = .idle) : stepsLeft s = 0 := by
  simp [stepsLeft, h]

theorem stepsLeft_of_round {s : State} (h : s.phase = .round) :
    stepsLeft s =
      ((roundOrder s.opr).length - (roundsBefore s.opr s.ri).length) + 1 + laterTrialSteps s := by
  simp [stepsLeft, h, laterTrialSteps]

theorem stepsLeft_of_emit {s : State} (h : s.phase = .emit) :
    stepsLeft s = 1 + laterTrialSteps s := by
  simp [stepsLeft, h, laterTrialSteps]

/-- The rounds not yet done of a command, the one RI names among them. -/
theorem roundsBefore_length_lt (op : Operation) (ri : RoundIndex) :
    (roundsBefore op ri).length < (roundOrder op).length := by
  cases op <;> cases ri <;> decide

theorem laterTrialSteps_roundCycle (s : State) :
    laterTrialSteps (roundCycle s) = laterTrialSteps s := by
  obtain ⟨hopr, hkeyr, _⟩ := roundCycle_frame s
  simp only [laterTrialSteps, hopr, hkeyr]

/-- A round is one of the counted steps. -/
theorem stepsLeft_roundCycle {s : State} (hp : s.phase = .round) :
    stepsLeft s = stepsLeft (roundCycle s) + 1 := by
  obtain ⟨hopr, _⟩ := roundCycle_frame s
  rw [stepsLeft_of_round hp]
  cases ha : roundAfter s.opr s.ri with
  | some j =>
    obtain ⟨hphase, hri⟩ := roundCycle_next hp ha
    have hlt := roundsBefore_length_lt s.opr j
    rw [stepsLeft_of_round hphase, laterTrialSteps_roundCycle, hopr, hri]
    simp only [roundsBefore_roundAfter ha, List.length_append, List.length_singleton] at hlt ⊢
    omega
  | none =>
    obtain ⟨horder, _⟩ := roundOrder_of_roundAfter_none ha
    rw [stepsLeft_of_emit (roundCycle_last ha), laterTrialSteps_roundCycle, horder,
      List.length_append, List.length_singleton]
    omega

/-- The taking of a record is one of the counted steps. -/
theorem stepsLeft_emitCycle {s : State} (hp : s.phase = .emit) :
    stepsLeft s = stepsLeft (emitCycle s) + 1 := by
  rw [stepsLeft_of_emit hp]
  obtain ⟨hlast, he⟩ | ⟨hop, hk, he⟩ := emitCycle_cases s
  · have hnone : laterTrialSteps s = 0 := by
      by_cases hop : s.opr = .srch
      · simp [laterTrialSteps, hop, (eq_lastKey_iff _).mp (hlast hop)]
      · simp [laterTrialSteps, hop]
    rw [he, stepsLeft_of_idle (emitSingle_phase s), hnone]
  · have hkey : s.keyr.toNat < 511 := by
      have hne := mt (eq_lastKey_iff s.keyr).mpr hk
      have hlt := s.keyr.isLt
      omega
    have htrial : stepsLeft (emitCycle s) = 5 + 5 * (511 - (s.keyr.toNat + 1)) := by
      rw [he, stepsLeft_of_round (startRounds_phase _ _ _), ← toNat_key_succ hk]
      simp [laterTrialSteps, hop, roundOrder, roundsBefore, decryptOrder]
    rw [htrial, laterTrialSteps, if_pos hop]
    omega

/-- Acceptance is the first of a command's steps. -/
theorem stepsOf_eq_stepsLeft_loaded (i : Instr) {s : State} (hp : s.phase = .idle) :
    stepsOf i = stepsLeft (loaded i s) + 1 := by
  cases i with
  | nop => exact congrArg (· + 1) (stepsLeft_of_idle hp).symm
  | enc block key => rfl
  | dec block key => rfl
  | srch block => rfl

theorem stepsLeft_pos {s : State} (hbusy : s.phase ≠ .idle) : 0 < stepsLeft s := by
  cases hp : s.phase with
  | idle => exact absurd hp hbusy
  | round => rw [stepsLeft_of_round hp]; omega
  | emit => rw [stepsLeft_of_emit hp]; omega

theorem stepsOf_pos (i : Instr) : 0 < stepsOf i := by
  cases i <;> exact Nat.succ_pos _

/-- The steps to the end of the command in progress and of every command on the stream. -/
def stepsToEnd (s : State) : Nat := stepsLeft s + stepsOfStream s.cmdStream

theorem stepsOfStream_cons (w : CommandWord) (ws : List CommandWord) :
    stepsOfStream (w :: ws) = stepsOf (decode w) + stepsOfStream ws := by
  simp [stepsOfStream]

/-- No step is left exactly when the engine is idle and the stream empty. -/
theorem stepsToEnd_eq_zero {s : State} (h : stepsToEnd s = 0) :
    s.phase = .idle ∧ s.cmdStream = [] := by
  obtain ⟨hleft, hstream⟩ := Nat.add_eq_zero_iff.mp h
  refine ⟨by_contra fun hbusy => (stepsLeft_pos hbusy).ne' hleft, ?_⟩
  cases hws : s.cmdStream with
  | nil => rfl
  | cons w ws =>
    have hpos := stepsOf_pos (decode w)
    rw [hws, stepsOfStream_cons] at hstream
    omega

/-- With an eager host every step is one of the counted ones, until none is left (R86). -/
theorem stepsToEnd_step {s t : State} (he : EagerHost s) (hleft : stepsToEnd s ≠ 0)
    (h : step s = .next t) : stepsToEnd s = stepsToEnd t + 1 := by
  have hnow := hostNow_of_eagerHost he
  have hstream := streamNow_of_eagerHost he
  have hcase := stepCase_of_step h
  have hbusy_stream := stepCase_cmdStream_of_busy hcase
  cases hcase with
  | reset hrst => exact absurd hrst (by simp [hnow, HostCycle.eager])
  | accept w _ hidle hw =>
    obtain ⟨_, htail, _⟩ := loaded_frame (decode w) (popCommand (beginCycle s))
    have hcons : s.cmdStream = w :: s.cmdStream.tail := hstream ▸ streamNow_eq_cons hw
    have hfirst := stepsOf_eq_stepsLeft_loaded (decode w) (s := popCommand (beginCycle s)) hidle
    rw [stepsToEnd, stepsToEnd, stepsLeft_of_idle hidle, htail, popCommand_cmdStream,
      beginCycle_cmdStream, hstream, hcons, stepsOfStream_cons, hfirst, List.tail_cons]
    omega
  | idle _ hidle hw =>
    have hempty : s.cmdStream = [] := by
      rwa [offeredWord_of_eagerHost he, List.head?_eq_none_iff] at hw
    exact absurd (by rw [stepsToEnd, stepsLeft_of_idle hidle, hempty]; rfl) hleft
  | round _ hround =>
    rw [stepsToEnd, stepsToEnd, hbusy_stream (by simp [hround]), hstream, Nat.add_right_comm,
      ← stepsLeft_roundCycle (s := beginCycle s) hround]
    rfl
  | taken _ hemit _ =>
    rw [stepsToEnd, stepsToEnd, hbusy_stream (by simp [hemit]), hstream, Nat.add_right_comm,
      ← stepsLeft_emitCycle (s := beginCycle s) hemit]
    rfl
  | held _ _ hready => exact absurd hready (by simp [hnow, HostCycle.eager])

/-- Every counted step keeps the log as it will stand; at the end nothing is owed. -/
theorem run_stepsToEnd {n : Nat} {s : State} (hinv : DatapathInv s) (he : EagerHost s)
    (hn : stepsToEnd s = n) :
    ∃ t, run n s = .next t ∧ t.phase = .idle ∧ t.cmdStream = [] ∧
      t.outLog = owedLog s ++ recordsOfStream s.cmdStream := by
  induction n generalizing s with
  | zero =>
    obtain ⟨hidle, hempty⟩ := stepsToEnd_eq_zero hn
    refine ⟨s, run_zero s, hidle, hempty, ?_⟩
    rw [owedLog, pendingRecords_of_idle hidle, hempty]
    simp [recordsOfStream]
  | succ n ih =>
    obtain ⟨u, hu, _⟩ := exists_step s
    have hcount := stepsToEnd_step he (by omega) hu
    have howed := step_keeps_owedRecords hinv
      (congrArg HostCycle.rst (hostNow_of_eagerHost he)) hu
    obtain ⟨t, ht, hidle, hempty, hlog⟩ :=
      ih (step_keeps_datapathInv hinv hu) (eagerHost_step he hu) (by omega)
    refine ⟨t, (run_succ_of_step hu).trans ht, hidle, hempty, ?_⟩
    rw [hlog, howed, streamNow_of_eagerHost he]

/-- Settles O48, by induction on the steps to the end. -/
theorem eagerHostRunsEveryCommand : Obligations.EagerHostRunsEveryCommand :=
  fun _ hinv he => run_stepsToEnd hinv he rfl

end Sys2Proof.Machine
end

section
/-! The command encoding (30_encoding.md): a word and its fields, decoding and encoding as inverse
directions, what an offered word brings into a step, the records of one command, the assembler. -/

namespace Sys2Proof.Machine

/-! ### A word and its fields (R45, R47) -/

@[simp] theorem opField_packCommand (op : BitVec 2) (key : MasterKey) (block : Block) :
    opField (packCommand op key block) = op :=
  (BitVec.extractLsb'_append_eq_of_le (by decide)).trans BitVec.extractLsb'_append_eq_left

@[simp] theorem keyField_packCommand (op : BitVec 2) (key : MasterKey) (block : Block) :
    keyField (packCommand op key block) = key :=
  (BitVec.extractLsb'_append_eq_of_le (by decide)).trans BitVec.extractLsb'_append_eq_right

@[simp] theorem blockField_packCommand (op : BitVec 2) (key : MasterKey) (block : Block) :
    blockField (packCommand op key block) = block := BitVec.extractLsb'_append_eq_right

/-- A word is its three fields. -/
theorem packCommand_fields (w : CommandWord) :
    packCommand (opField w) (keyField w) (blockField w) = w := by
  have hhigh : opField w ++ keyField w = w.extractLsb' 12 11 :=
    BitVec.extractLsb'_append_extractLsb'_eq_extractLsb' rfl
  have hall : w.extractLsb' 12 11 ++ blockField w = w.extractLsb' 0 23 :=
    BitVec.extractLsb'_append_extractLsb'_eq_extractLsb' rfl
  rw [packCommand, hhigh, hall]
  exact BitVec.extractLsb'_eq_self

/-- A mask given by its fields acts on a word field by field. -/
theorem and_packCommand (w : CommandWord) (op : BitVec 2) (key : MasterKey) (block : Block) :
    w &&& packCommand op key block =
      packCommand (opField w &&& op) (keyField w &&& key) (blockField w &&& block) := by
  conv_lhs => rw [← packCommand_fields w]
  exact Laws.OpcodeRow.packCommand_and ..

theorem toNat_packCommand (op : BitVec 2) (key : MasterKey) (block : Block) :
    (packCommand op key block).toNat = (op.toNat * 2 ^ 9 + key.toNat) * 2 ^ 12 + block.toNat := by
  rw [packCommand, BitVec.toNat_append, BitVec.toNat_append,
    ← Nat.shiftLeft_add_eq_or_of_lt block.isLt, ← Nat.shiftLeft_add_eq_or_of_lt key.isLt,
    Nat.shiftLeft_eq, Nat.shiftLeft_eq]

theorem toNat_opField (w : CommandWord) : (opField w).toNat = w.toNat / 2 ^ 21 := by
  have hlt := w.isLt
  rw [opField, BitVec.extractLsb'_toNat, Nat.shiftRight_eq_div_pow]
  omega

theorem toNat_keyField (w : CommandWord) : (keyField w).toNat = w.toNat / 2 ^ 12 % 2 ^ 9 := by
  rw [keyField, BitVec.extractLsb'_toNat, Nat.shiftRight_eq_div_pow]

theorem toNat_blockField (w : CommandWord) : (blockField w).toNat = w.toNat % 2 ^ 12 := by
  rw [blockField, BitVec.extractLsb'_toNat, Nat.shiftRight_zero]

/-! ### Decode and encode (R46, R48, R49) -/

/-- The opcode takes one of four values, and each has its command. -/
theorem decode_cases (w : CommandWord) :
    (opField w = 0b00#2 ∧ decode w = .nop) ∨
      (opField w = 0b01#2 ∧ decode w = .enc (blockField w) (keyField w)) ∨
      (opField w = 0b10#2 ∧ decode w = .dec (blockField w) (keyField w)) ∨
      (opField w = 0b11#2 ∧ decode w = .srch (blockField w)) := by
  have hop : ∀ op : BitVec 2, op = 0b00#2 ∨ op = 0b01#2 ∨ op = 0b10#2 ∨ op = 0b11#2 := by decide
  obtain h | h | h | h := hop (opField w)
  · exact .inl ⟨h, decode_of_op00 h⟩
  · exact .inr (.inl ⟨h, decode_of_op01 h⟩)
  · exact .inr (.inr (.inl ⟨h, decode_of_op10 h⟩))
  · exact .inr (.inr (.inr ⟨h, decode_of_op11 h⟩))

@[simp] theorem decode_encode (i : Instr) : decode (encode i) = i := by
  cases i with
  | nop => exact decode_of_op00 (opField_packCommand ..)
  | enc block key => simpa [encode] using decode_of_op01 (opField_packCommand 0b01#2 key block)
  | dec block key => simpa [encode] using decode_of_op10 (opField_packCommand 0b10#2 key block)
  | srch block => simpa [encode] using decode_of_op11 (opField_packCommand 0b11#2 0#9 block)

theorem not_ignored_nop : ~~~(rowOf .nop).ignored = packCommand 0b11#2 0#9 0#12 := by decide

theorem not_ignored_enc (block : Block) (key : MasterKey) :
    ~~~(rowOf (.enc block key)).ignored = BitVec.allOnes 23 := BitVec.not_zero

theorem not_ignored_dec (block : Block) (key : MasterKey) :
    ~~~(rowOf (.dec block key)).ignored = BitVec.allOnes 23 := BitVec.not_zero

theorem not_ignored_srch (block : Block) :
    ~~~(rowOf (.srch block)).ignored = packCommand 0b11#2 0#9 (BitVec.allOnes 12) := by
  change ~~~0x1FF000#23 = _
  decide

/-- Encoding a decoded word clears the fields its command does not look at. -/
theorem encode_decode (w : CommandWord) :
    encode (decode w) = w &&& ~~~(rowOf (decode w)).ignored := by
  obtain ⟨hop, hd⟩ | ⟨hop, hd⟩ | ⟨hop, hd⟩ | ⟨hop, hd⟩ := decode_cases w
  · rw [hd, not_ignored_nop, and_packCommand, hop, BitVec.and_zero, BitVec.and_zero]
    rfl
  · rw [hd, not_ignored_enc, BitVec.and_allOnes, encode, ← hop, packCommand_fields]
  · rw [hd, not_ignored_dec, BitVec.and_allOnes, encode, ← hop, packCommand_fields]
  · rw [hd, not_ignored_srch, and_packCommand, hop, BitVec.and_zero, BitVec.and_allOnes]
    rfl

/-- Settles O1: both directions, by the opcode. -/
theorem decodeAndEncodeAgree : Obligations.DecodeAndEncodeAgree := ⟨decode_encode, encode_decode⟩

/-! ### The opcode table (R46, R48) -/

theorem encode_and_mask (i : Instr) : encode i &&& (rowOf i).mask = (rowOf i).pattern := by
  cases i with
  | nop => exact Laws.OpcodeRow.nop.1
  | enc block key => exact (Laws.OpcodeRow.enc block key).1
  | dec block key => exact (Laws.OpcodeRow.dec block key).1
  | srch block => exact (Laws.OpcodeRow.srch block).1

/-- Every row looks at the opcode and at nothing else. -/
theorem mask_rowOf (i : Instr) : (rowOf i).mask = 0x600000#23 := by cases i <;> rfl

/-- No row ignores a bit its mask looks at. -/
theorem not_ignored_and_mask (i : Instr) :
    ~~~(rowOf i).ignored &&& (rowOf i).mask = (rowOf i).mask := by
  cases i <;> simp only [rowOf] <;> decide

/-- A word matches the row of its command (R48). -/
theorem and_mask_rowOf_decode (w : CommandWord) :
    w &&& (rowOf (decode w)).mask = (rowOf (decode w)).pattern := by
  rw [← encode_and_mask, encode_decode, BitVec.and_assoc, not_ignored_and_mask]

/-- The mask leaves the opcode of a word. -/
theorem and_mask_eq_opcode (w : CommandWord) (i : Instr) :
    w &&& (rowOf i).mask = packCommand (opField w) 0#9 0#12 := by
  rw [mask_rowOf]
  conv_lhs => rw [← packCommand_fields w]
  exact Laws.OpcodeRow.packCommand_mask ..

/-- The opcode alone picks the row. -/
theorem rowOf_decode_congr {w w' : CommandWord} (h : opField w = opField w') :
    rowOf (decode w) = rowOf (decode w') := by
  obtain ⟨hop, hd⟩ | ⟨hop, hd⟩ | ⟨hop, hd⟩ | ⟨hop, hd⟩ := decode_cases w <;> rw [h] at hop
  · rw [hd, decode_of_op00 hop]
  · rw [hd, decode_of_op01 hop]
    rfl
  · rw [hd, decode_of_op10 hop]
    rfl
  · rw [hd, decode_of_op11 hop]
    rfl

/-- A word matches the row of no other command. -/
theorem rowOf_eq_of_match {w : CommandWord} {i : Instr}
    (h : w &&& (rowOf i).mask = (rowOf i).pattern) : rowOf i = rowOf (decode w) := by
  have hword : w &&& (rowOf i).mask = encode i &&& (rowOf i).mask :=
    h.trans (encode_and_mask i).symm
  rw [and_mask_eq_opcode, and_mask_eq_opcode] at hword
  have hop : opField w = opField (encode i) := by simpa using congrArg opField hword
  rw [rowOf_decode_congr hop, decode_encode]

/-- Settles O2: the opcode tells the row, and a field of a word is a quotient and a remainder. -/
theorem eachWordMatchesItsRowAlone : Obligations.EachWordMatchesItsRowAlone := by
  refine fun w => ⟨and_mask_rowOf_decode w, fun i => rowOf_eq_of_match, ?_⟩
  have hopcode := toNat_opField w
  obtain ⟨hop, hd⟩ | ⟨hop, hd⟩ | ⟨hop, hd⟩ | ⟨hop, hd⟩ := decode_cases w <;>
    rw [hop] at hopcode <;> rw [hd]
  · exact hopcode.symm
  · exact ⟨hopcode.symm, toNat_keyField w, toNat_blockField w⟩
  · exact ⟨hopcode.symm, toNat_keyField w, toNat_blockField w⟩
  · exact ⟨hopcode.symm, toNat_blockField w⟩

/-- Settles O3, by evaluating the decoder on the six words. -/
theorem writtenOutWordsDecode : Obligations.WrittenOutWordsDecode := by
  unfold Obligations.WrittenOutWordsDecode
  decide

/-! ### What an offered word brings into a step (R35, R49) -/

/-- Words that differ in ignored fields alone are the same command. -/
theorem decode_eq_of_used_eq {w w' : CommandWord}
    (h : w &&& ~~~(rowOf (decode w)).ignored = w' &&& ~~~(rowOf (decode w')).ignored) :
    decode w = decode w' := by
  rw [← encode_decode, ← encode_decode] at h
  exact Function.LeftInverse.injective decode_encode h

/-- An idle engine's step on the head of the stream is that word's command. -/
theorem step_of_head {s : State} (w : CommandWord) (ws : List CommandWord) (hp : s.phase = .idle)
    (hrst : (hostNow s).rst = false) (hcmd : (hostNow s).cmd = .offer) :
    step { s with cmdStream := w :: ws } =
      exec (decode w) { beginCycle s with cmdStream := ws } := by
  have hnow : hostNow { s with cmdStream := w :: ws } = hostNow s := rfl
  have hword : offeredWord { s with cmdStream := w :: ws } = some w := by
    simp only [offeredWord, hnow, hcmd, List.head?_cons]
  have hstream : streamNow { s with cmdStream := w :: ws } = w :: ws := by
    simp only [streamNow, hnow, hcmd]
  rw [step_of_idle_offer (s := { s with cmdStream := w :: ws }) hrst hp hword]
  simp only [popCommand, beginCycle, hstream, List.tail_cons]

/-- Settles O4: the step runs the word's command, and both words have the same. -/
theorem ignoredFieldsDoNotReachTheEngine : Obligations.IgnoredFieldsDoNotReachTheEngine := by
  intro s w w' ws h hp hrst hcmd
  rw [step_of_head w ws hp hrst hcmd, step_of_head w' ws hp hrst hcmd, decode_eq_of_used_eq h]

/-! ### The records of one command (R53, R86) -/

theorem length_recordsOf (i : Instr) : (recordsOf i).length = (rowOf i).records := by
  cases i with
  | nop => rfl
  | enc block key => rfl
  | dec block key => rfl
  | srch block => simp [recordsOf, rowOf, search]

/-- With an eager host the command in progress runs to its end in the steps left of it, hands over
what it owes and leaves the stream alone. -/
theorem run_stepsLeft {n : Nat} {s : State} (hinv : DatapathInv s) (he : EagerHost s)
    (hn : stepsLeft s = n) :
    ∃ t, run n s = .next t ∧ t.phase = .idle ∧ t.cmdStream = s.cmdStream ∧
      t.outLog = owedLog s := by
  induction n generalizing s with
  | zero =>
    have hidle : s.phase = .idle := by_contra fun hbusy => (stepsLeft_pos hbusy).ne' hn
    refine ⟨s, run_zero s, hidle, rfl, ?_⟩
    rw [owedLog, pendingRecords_of_idle hidle, List.append_nil]
  | succ n ih =>
    have hbusy : s.phase ≠ .idle := fun hidle => by simp [stepsLeft_of_idle hidle] at hn
    obtain ⟨u, hu, hcase⟩ := exists_step s
    have hstream : u.cmdStream = s.cmdStream :=
      (stepCase_cmdStream_of_busy hcase hbusy).trans (streamNow_of_eagerHost he)
    have hleft : stepsLeft u = n := by
      have hcount := stepsToEnd_step he (by rw [stepsToEnd]; omega) hu
      rw [stepsToEnd, stepsToEnd, hstream] at hcount
      omega
    have howed : owedLog u = owedLog s := by
      have hkept := step_keeps_owedRecords hinv
        (congrArg HostCycle.rst (hostNow_of_eagerHost he)) hu
      rw [hstream, streamNow_of_eagerHost he] at hkept
      exact List.append_cancel_right hkept
    obtain ⟨t, ht, hidle, hkept, hlog⟩ :=
      ih (step_keeps_datapathInv hinv hu) (eagerHost_step he hu) hleft
    exact ⟨t, (run_succ_of_step hu).trans ht, hidle, hkept.trans hstream, hlog.trans howed⟩

/-- The head of an eager host's stream runs to its end in the steps of its command, which adds its
records to the log. -/
theorem run_stepsOf {s : State} {w : CommandWord} {ws : List CommandWord} (hp : s.phase = .idle)
    (he : EagerHost s) (hws : s.cmdStream = w :: ws) :
    ∃ t, run (stepsOf (decode w)) s = .next t ∧ t.phase = .idle ∧ t.cmdStream = ws ∧
      t.outLog = s.outLog ++ recordsOf (decode w) := by
  have hword : offeredWord s = some w := by rw [offeredWord_of_eagerHost he, hws, List.head?_cons]
  have hstep : step s = .next (loaded (decode w) (popCommand (beginCycle s))) :=
    step_of_accept (congrArg HostCycle.rst (hostNow_of_eagerHost he)) hp hword rfl
  have hp' : (popCommand (beginCycle s)).phase = .idle := hp
  obtain ⟨t, ht, hidle, hstream, hlog⟩ :=
    run_stepsLeft (datapathInv_loaded (decode w) hp') (eagerHost_step he hstep) rfl
  obtain ⟨_, htail, _⟩ := loaded_frame (decode w) (popCommand (beginCycle s))
  rw [stepsOf_eq_stepsLeft_loaded (decode w) hp', run_succ_of_step hstep]
  refine ⟨t, ht, hidle, ?_, hlog.trans (owedLog_loaded (decode w) hp')⟩
  rw [hstream, htail, popCommand_cmdStream, beginCycle_cmdStream, streamNow_of_eagerHost he, hws,
    List.tail_cons]

/-- Settles O17: the run of the one command, and the number of its records by its row. -/
theorem recordsPerCommand : Obligations.RecordsPerCommand := by
  intro s w ws hp he hws
  obtain ⟨t, ht, hidle, hstream, hlog⟩ := run_stepsOf hp he hws
  have hlen : t.outLog.length = s.outLog.length + (rowOf (decode w)).records := by
    rw [hlog, List.length_append, length_recordsOf]
  refine ⟨t, ht, hidle, hstream, hlog, hlen, fun hop => ?_, fun hop => ?_, fun hop => ?_,
    fun hop => ?_⟩
  · rwa [decode_of_op00 hop] at hlen
  · rwa [decode_of_op01 hop] at hlen
  · rwa [decode_of_op10 hop] at hlen
  · rwa [decode_of_op11 hop] at hlen

/-! ### The assembler (R51) -/

theorem wellFormed_enc_iff (block key : Nat) :
    (SourceCommand.enc block key).wellFormed = true ↔ block < 4096 ∧ key < 512 := by
  simp [SourceCommand.wellFormed, blockInRange, keyInRange]

theorem wellFormed_dec_iff (block key : Nat) :
    (SourceCommand.dec block key).wellFormed = true ↔ block < 4096 ∧ key < 512 :=
  wellFormed_enc_iff block key

theorem wellFormed_srch_iff (block : Nat) :
    (SourceCommand.srch block).wellFormed = true ↔ block < 4096 := by
  simp [SourceCommand.wellFormed, blockInRange]

theorem assemble_of_checkSource {c : SourceCommand} {i : Instr} (h : checkSource c = .ok i) :
    assemble c = .ok (encode i) := by rw [assemble, h, Except.map]

/-- An operand out of range is an assembler error. -/
theorem assemble_of_not_wellFormed {c : SourceCommand} (h : ¬ c.wellFormed = true) :
    assemble c = .error .operandOutOfRange := by
  have hcheck : checkSource c = .error .operandOutOfRange := if_neg h
  rw [assemble, hcheck, Except.map]

theorem assemble_enc {block key : Nat} (hblock : block < 4096) (hkey : key < 512) :
    assemble (.enc block key) = .ok (encode (.enc (BitVec.ofNat 12 block) (BitVec.ofNat 9 key))) :=
  assemble_of_checkSource (if_pos ((wellFormed_enc_iff block key).mpr ⟨hblock, hkey⟩))

theorem assemble_dec {block key : Nat} (hblock : block < 4096) (hkey : key < 512) :
    assemble (.dec block key) = .ok (encode (.dec (BitVec.ofNat 12 block) (BitVec.ofNat 9 key))) :=
  assemble_of_checkSource (if_pos ((wellFormed_dec_iff block key).mpr ⟨hblock, hkey⟩))

theorem assemble_srch {block : Nat} (hblock : block < 4096) :
    assemble (.srch block) = .ok (encode (.srch (BitVec.ofNat 12 block))) :=
  assemble_of_checkSource (if_pos ((wellFormed_srch_iff block).mpr hblock))

/-- SRCH's word as a number: the opcode's bits above a zero key field and the block. -/
theorem toNat_encode_srch {block : Nat} (hblock : block < 4096) :
    (encode (.srch (BitVec.ofNat 12 block))).toNat = 0x600000 + block := by
  rw [encode, toNat_packCommand, BitVec.toNat_ofNat, BitVec.toNat_ofNat, BitVec.toNat_ofNat,
    Nat.mod_eq_of_lt hblock]
  omega

/-- Settles O50: an operand in range assembles to its command's canonical word, one out of range
to an error; the spec's examples are evaluated. -/
theorem assembledWordsDecodeBack : Obligations.AssembledWordsDecodeBack := by
  refine ⟨fun block key hblock hkey => ⟨?_, ?_, ?_⟩, fun block key hout => ?_, fun block hout => ?_,
    rfl, rfl, rfl, rfl⟩
  · exact ⟨_, assemble_enc hblock hkey, decode_encode _⟩
  · exact ⟨_, assemble_dec hblock hkey, decode_encode _⟩
  · exact ⟨_, assemble_srch hblock, toNat_encode_srch hblock⟩
  · have hbad : ¬ (block < 4096 ∧ key < 512) := by omega
    exact ⟨assemble_of_not_wellFormed (mt (wellFormed_enc_iff block key).mp hbad),
      assemble_of_not_wellFormed (mt (wellFormed_dec_iff block key).mp hbad)⟩
  · exact assemble_of_not_wellFormed (mt (wellFormed_srch_iff block).mp (Nat.not_lt.mpr hout))

end Sys2Proof.Machine
end

section
/-! The key schedule (40_key_schedule.md): the subkeys as numbers, as windows of the ring of the key
bits, and what a key bit reaches. -/

namespace Sys2Proof.Machine

/-! ### The subkeys as numbers (R60 to R64) -/

/-- Where both masks, moved to their places, fit in a byte, the reduction of a subkey "modulo 2^8"
drops nothing. -/
theorem toNat_setWidth_masked_shifts (k : MasterKey) {p q : MasterKey} {m n : Nat}
    (hp : p.toNat <<< m < 2 ^ 8) (hq : q.toNat >>> n < 2 ^ 8) :
    (((k &&& p) <<< m ||| (k &&& q) >>> n).setWidth 8).toNat =
      (k.toNat &&& p.toNat) <<< m ||| (k.toNat &&& q.toNat) >>> n := by
  have hleft : (k.toNat &&& p.toNat) <<< m < 2 ^ 8 := by
    rw [Nat.shiftLeft_eq] at hp ⊢
    exact (Nat.mul_le_mul_right _ Nat.and_le_right).trans_lt hp
  have hright : (k.toNat &&& q.toNat) >>> n < 2 ^ 8 := by
    rw [Nat.shiftRight_eq_div_pow] at hq ⊢
    exact (Nat.div_le_div_right Nat.and_le_right).trans_lt hq
  rw [BitVec.toNat_setWidth, BitVec.toNat_or, BitVec.toNat_shiftLeft, BitVec.toNat_ushiftRight,
    BitVec.toNat_and, BitVec.toNat_and, Nat.mod_eq_of_lt (hleft.trans (by decide)),
    Nat.mod_eq_of_lt (Nat.or_lt_two_pow hleft hright)]

theorem toNat_keySchedule_one (k : MasterKey) :
    (keySchedule k .one).toNat = (k.toNat >>> 1) &&& 0xFF := by
  rw [keySchedule, BitVec.toNat_setWidth, BitVec.toNat_and, BitVec.toNat_ushiftRight]
  exact Nat.mod_eq_of_lt (Nat.and_lt_two_pow _ (by decide))

theorem toNat_keySchedule_two (k : MasterKey) :
    (keySchedule k .two).toNat = k.toNat &&& 0xFF := by
  rw [keySchedule, BitVec.toNat_setWidth, BitVec.toNat_and]
  exact Nat.mod_eq_of_lt (Nat.and_lt_two_pow _ (by decide))

theorem toNat_keySchedule_three (k : MasterKey) :
    (keySchedule k .three).toNat =
      ((k.toNat &&& 0x07F) <<< 1) ||| ((k.toNat &&& 0x100) >>> 8) :=
  toNat_setWidth_masked_shifts (p := k3LeftMask) (q := k3RightMask) k (by decide) (by decide)

theorem toNat_keySchedule_four (k : MasterKey) :
    (keySchedule k .four).toNat =
      ((k.toNat &&& 0x03F) <<< 2) ||| ((k.toNat &&& 0x180) >>> 7) :=
  toNat_setWidth_masked_shifts (p := k4LeftMask) (q := k4RightMask) k (by decide) (by decide)

/-- Settles O5: the four formulas, and the corner cases by evaluation. -/
theorem keyScheduleByMasksAndShifts : Obligations.KeyScheduleByMasksAndShifts :=
  ⟨fun k => ⟨toNat_keySchedule_one k, toNat_keySchedule_two k, toNat_keySchedule_three k,
    toNat_keySchedule_four k⟩, by decide, by decide, by decide, by decide, by decide⟩

/-! ### The subkeys bit by bit (R61 to R64) -/

theorem getLsbD_keySchedule_one (k : MasterKey) {j : Nat} (hj : j < 8) :
    (keySchedule k .one).getLsbD j = k.getLsbD (j + 1) := by
  have hmask : ∀ j < 8, k1Mask.getLsbD j = true := by decide
  simp [keySchedule, k1Shift, hmask j hj, hj, Nat.add_comm]

theorem getLsbD_keySchedule_two (k : MasterKey) {j : Nat} (hj : j < 8) :
    (keySchedule k .two).getLsbD j = k.getLsbD j := by
  have hmask : ∀ j < 8, k2Mask.getLsbD j = true := by decide
  simp [keySchedule, hmask j hj, hj]

/-- K[3]: seven bits moved up by one, and below them the key's top bit. -/
theorem getLsbD_keySchedule_three (k : MasterKey) {j : Nat} (hj : j < 8) :
    (keySchedule k .three).getLsbD j = if j < 1 then k.getLsbD (8 + j) else k.getLsbD (j - 1) := by
  have hleft : ∀ j < 7, k3LeftMask.getLsbD j = true := by decide
  have hright : ∀ j < 8, k3RightMask.getLsbD (8 + j) = decide (j < 1) := by decide
  by_cases hlow : j < 1
  · simp [keySchedule, k3LeftShift, k3RightShift, hright j hj, hj, hlow]
  · simp [keySchedule, k3LeftShift, k3RightShift, hright j hj, hleft (j - 1) (by omega), hj, hlow]

/-- K[4]: six bits moved up by two, and below them the key's top two bits. -/
theorem getLsbD_keySchedule_four (k : MasterKey) {j : Nat} (hj : j < 8) :
    (keySchedule k .four).getLsbD j = if j < 2 then k.getLsbD (7 + j) else k.getLsbD (j - 2) := by
  have hleft : ∀ j < 6, k4LeftMask.getLsbD j = true := by decide
  have hright : ∀ j < 8, k4RightMask.getLsbD (7 + j) = decide (j < 2) := by decide
  by_cases hlow : j < 2
  · simp [keySchedule, k4LeftShift, k4RightShift, hright j hj, hj, hlow]
  · simp [keySchedule, k4LeftShift, k4RightShift, hright j hj, hleft (j - 2) (by omega), hj, hlow]

/-! ### The ring of the key bits (R65) -/

/-- Bit j of K[i] is the key bit j places up the ring from the window's lowest bit. -/
theorem getLsbD_keySchedule (k : MasterKey) (i : RoundIndex) {j : Nat} (hj : j < 8) :
    (keySchedule k i).getLsbD j = k.getLsbD ((j + 11 - roundNumber i) % 9) := by
  cases i with
  | one =>
    have hring : (j + 11 - roundNumber .one) % 9 = j + 1 := by rw [roundNumber]; omega
    rw [hring, getLsbD_keySchedule_one k hj]
  | two =>
    have hring : (j + 11 - roundNumber .two) % 9 = j := by rw [roundNumber]; omega
    rw [hring, getLsbD_keySchedule_two k hj]
  | three =>
    have hring : (j + 11 - roundNumber .three) % 9 = if j < 1 then 8 + j else j - 1 := by
      rw [roundNumber]; split <;> omega
    rw [hring, getLsbD_keySchedule_three k hj, apply_ite k.getLsbD]
  | four =>
    have hring : (j + 11 - roundNumber .four) % 9 = if j < 2 then 7 + j else j - 2 := by
      rw [roundNumber]; split <;> omega
    rw [hring, getLsbD_keySchedule_four k hj, apply_ite k.getLsbD]

theorem roundNumber_bounds (i : RoundIndex) : 1 ≤ roundNumber i ∧ roundNumber i ≤ 4 := by
  cases i <;> decide

/-- The window of K[i] holds every key bit but one. -/
theorem exists_window_index_iff (i : RoundIndex) {n : Nat} (hn : n < 9) :
    (∃ j < 8, (j + 11 - roundNumber i) % 9 = n) ↔ n ≠ (10 - roundNumber i) % 9 := by
  obtain ⟨hlow, hhigh⟩ := roundNumber_bounds i
  constructor
  · rintro ⟨j, hj, rfl⟩
    omega
  · intro hne
    exact ⟨(n + 7 + roundNumber i) % 9, by omega, by omega⟩

/-- Flipping key bit n flips the bits of K[i] that the window takes from n, and no others. -/
theorem getLsbD_keySchedule_flip (k : MasterKey) (i : RoundIndex) {n j : Nat} (hn : n < 9)
    (hj : j < 8) :
    (keySchedule (k ^^^ BitVec.twoPow 9 n) i).getLsbD j =
      ((keySchedule k i).getLsbD j ^^ decide (n = (j + 11 - roundNumber i) % 9)) := by
  rw [getLsbD_keySchedule _ i hj, getLsbD_keySchedule k i hj, BitVec.getLsbD_xor,
    BitVec.getLsbD_twoPow, decide_eq_true hn, Bool.true_and]

/-- A key bit stays out of a subkey exactly when it is the one bit outside the subkey's window. -/
theorem keySchedule_flip_eq_iff (k : MasterKey) (i : RoundIndex) {n : Nat} (hn : n < 9) :
    keySchedule (k ^^^ BitVec.twoPow 9 n) i = keySchedule k i ↔
      n = (10 - roundNumber i) % 9 := by
  rw [← not_iff_not, ← ne_eq n, ← exists_window_index_iff i hn]
  constructor
  · intro hne
    by_contra hout
    refine hne (BitVec.eq_of_getLsbD_eq fun j hj => ?_)
    have hj' : n ≠ (j + 11 - roundNumber i) % 9 := fun h => hout ⟨j, hj, h.symm⟩
    rw [getLsbD_keySchedule_flip k i hn hj, decide_eq_false hj', Bool.xor_false]
  · rintro ⟨j, hj, hjn⟩ heq
    have hflip := getLsbD_keySchedule_flip k i hn hj
    rw [heq, decide_eq_true hjn.symm, Bool.xor_true] at hflip
    exact Bool.not_ne_self _ hflip.symm

/-- The bits the four windows leave out are different, so that a key bit is outside one at most. -/
theorem three_le_countP_keySchedule_flip_ne (k : MasterKey) {n : Nat} (hn : n < 9) :
    3 ≤ encryptOrder.countP
      (fun i => keySchedule (k ^^^ BitVec.twoPow 9 n) i ≠ keySchedule k i) := by
  have hcount : ∀ n < 9,
      3 ≤ encryptOrder.countP (fun i => n ≠ (10 - roundNumber i) % 9) := by decide
  simpa only [ne_eq, keySchedule_flip_eq_iff k _ hn] using hcount n hn

/-- K[2] holds the low eight bits of the key, and K[1] the bit above them. -/
theorem keySchedule_injective {k k' : MasterKey}
    (h : ∀ i, keySchedule k i = keySchedule k' i) : k = k' := by
  refine BitVec.eq_of_getLsbD_eq fun n hn => ?_
  obtain hlow | rfl : n < 8 ∨ n = 8 := by omega
  · rw [← getLsbD_keySchedule_two k hlow, ← getLsbD_keySchedule_two k' hlow, h]
  · rw [← getLsbD_keySchedule_one k (j := 7) (by decide),
      ← getLsbD_keySchedule_one k' (j := 7) (by decide), h]

/-- Settles O6: the windows, the bit outside each, and the key read back from two of them. -/
theorem keyScheduleIsAWindowOfTheRing : Obligations.KeyScheduleIsAWindowOfTheRing := by
  refine ⟨fun k i _ => getLsbD_keySchedule k i, fun i n hn => ⟨fun h => ?_, fun h k => ?_⟩,
    fun k _ => three_le_countP_keySchedule_flip_ne k, fun _ _ => keySchedule_injective⟩
  · exact (keySchedule_flip_eq_iff 0#9 i hn).mp (h 0#9)
  · exact (keySchedule_flip_eq_iff k i hn).mpr h

end Sys2Proof.Machine
end

section
/-! The expansion (41_expansion.md): its output bits by the wiring table, and the half read back
from an expanded byte. -/

namespace Sys2Proof.Machine

/-! ### The output bits by the wiring table (R66) -/

/-- One step of the fold in `expand`: source bit `src` of r enters below the bits already placed. -/
def shiftInBit (r : HalfBlock) (e : ExpandedHalf) (src : Nat) : ExpandedHalf :=
  (e <<< 1) ||| (BitVec.ofBool (r.getLsbD src)).setWidth 8

theorem expand_eq_foldl (r : HalfBlock) : expand r = expansionWiring.foldl (shiftInBit r) 0#8 :=
  rfl

theorem getLsbD_shiftInBit_zero (r : HalfBlock) (e : ExpandedHalf) (src : Nat) :
    (shiftInBit r e src).getLsbD 0 = r.getLsbD src := by
  simp [shiftInBit]

theorem getLsbD_shiftInBit_succ (r : HalfBlock) (e : ExpandedHalf) (src : Nat) {j : Nat}
    (hj : j + 1 < 8) : (shiftInBit r e src).getLsbD (j + 1) = e.getLsbD j := by
  simp [shiftInBit, hj, -BitVec.getLsbD_eq_getElem]

/-- Whatever list of source bits is wired, output bit j is the j-th source from its end; with no
such source it is 0, as is bit 6 of a half. -/
theorem getLsbD_foldl_shiftInBit (r : HalfBlock) (wiring : List Nat) {j : Nat} (hj : j < 8) :
    (wiring.foldl (shiftInBit r) 0#8).getLsbD j = r.getLsbD (wiring.reverse.getD j 6) := by
  induction wiring using List.reverseRecOn generalizing j with
  | nil => simp
  | append_singleton wiring src ih =>
    rw [List.foldl_append, List.reverse_append]
    cases j with
    | zero => exact getLsbD_shiftInBit_zero r _ src
    | succ j => exact (getLsbD_shiftInBit_succ r _ src hj).trans (ih (by omega))

theorem getLsbD_expand (r : HalfBlock) {j : Nat} (hj : j < 8) :
    (expand r).getLsbD j = r.getLsbD (expansionWiring.reverse.getD j 6) := by
  rw [expand_eq_foldl, getLsbD_foldl_shiftInBit r expansionWiring hj]

/-- Settles O7: the eight wires from the table, and the corner cases by evaluation. -/
theorem expansionFollowsItsWiring : Obligations.ExpansionFollowsItsWiring :=
  ⟨fun r => ⟨getLsbD_expand r (by decide), getLsbD_expand r (by decide),
    getLsbD_expand r (by decide), getLsbD_expand r (by decide), getLsbD_expand r (by decide),
    getLsbD_expand r (by decide), getLsbD_expand r (by decide), getLsbD_expand r (by decide)⟩,
    by decide, by decide, by decide, by decide, by decide, by decide⟩

/-! ### The half read back, the images and the nibbles (R67) -/

/-- R67 (a): r[5:4], r[3], r[2] and r[1:0] as E(r) holds them. -/
def contract (e : ExpandedHalf) : HalfBlock :=
  e.extractLsb' 6 2 ++ e.extractLsb' 4 1 ++ e.extractLsb' 5 1 ++ e.extractLsb' 0 2

/-- The bits of a byte that `contract` reads, from bit 0 of the half up. -/
def contractionWiring : List Nat := [0, 1, 5, 4, 6, 7]

theorem getLsbD_contract (e : ExpandedHalf) {j : Nat} (hj : j < 6) :
    (contract e).getLsbD j = e.getLsbD (contractionWiring.getD j 8) := by
  simp only [contract, BitVec.getLsbD_append, BitVec.getLsbD_extractLsb']
  interval_cases j <;> simp [contractionWiring]

/-- Each bit of r is read back from a place that E wires it to. -/
theorem contract_expand (r : HalfBlock) : contract (expand r) = r := by
  have hrange : ∀ j < 6, contractionWiring.getD j 8 < 8 := by decide
  have hwires : ∀ j < 6, expansionWiring.reverse.getD (contractionWiring.getD j 8) 6 = j := by
    decide
  refine BitVec.eq_of_getLsbD_eq fun j hj => ?_
  rw [getLsbD_contract _ hj, getLsbD_expand r (hrange j hj), hwires j hj]

theorem expand_injective : Function.Injective expand :=
  Function.LeftInverse.injective contract_expand

/-- The two bits that `contract` does not read, 3 and 2, are those with an equal twin, 5 and 4. -/
theorem expand_contract {e : ExpandedHalf} (h53 : e.getLsbD 5 = e.getLsbD 3)
    (h42 : e.getLsbD 4 = e.getLsbD 2) : expand (contract e) = e := by
  have hrange : ∀ j < 8, expansionWiring.reverse.getD j 6 < 6 := by decide
  have hwires : ∀ j < 8, contractionWiring.getD (expansionWiring.reverse.getD j 6) 8 =
      if j = 3 then 5 else if j = 2 then 4 else j := by decide
  refine BitVec.eq_of_getLsbD_eq fun j hj => ?_
  rw [getLsbD_expand _ hj, getLsbD_contract e (hrange j hj), hwires j hj]
  split_ifs with h3 h2
  · rw [h3, h53]
  · rw [h2, h42]
  · rfl

theorem exists_expand_eq_iff (e : ExpandedHalf) :
    (∃ r, expand r = e) ↔ e.getLsbD 5 = e.getLsbD 3 ∧ e.getLsbD 4 = e.getLsbD 2 := by
  constructor
  · rintro ⟨r, rfl⟩
    obtain ⟨-, -, hbit5, hbit4, hbit3, hbit2, -, -⟩ := expansionFollowsItsWiring.1 r
    exact ⟨hbit5.trans hbit3.symm, hbit4.trans hbit2.symm⟩
  · rintro ⟨h53, h42⟩
    exact ⟨contract e, expand_contract h53 h42⟩

/-- R66's own form of E, cut into the two nibbles that the S-boxes read. -/
theorem expand_eq_append (r : HalfBlock) :
    expand r = (r.extractLsb' 4 2 ++ r.extractLsb' 2 1 ++ r.extractLsb' 3 1) ++
      (r.extractLsb' 2 1 ++ r.extractLsb' 3 1 ++ r.extractLsb' 0 2) := by
  refine BitVec.eq_of_getLsbD_eq fun j hj => ?_
  rw [getLsbD_expand r hj]
  simp only [BitVec.getLsbD_append, BitVec.getLsbD_extractLsb']
  interval_cases j <;> simp [expansionWiring]

theorem expand_high_nibble (r : HalfBlock) :
    (expand r).extractLsb' 4 4 = r.extractLsb' 4 2 ++ r.extractLsb' 2 1 ++ r.extractLsb' 3 1 := by
  rw [expand_eq_append, BitVec.extractLsb'_append_eq_left]

theorem expand_low_nibble (r : HalfBlock) :
    (expand r).extractLsb' 0 4 = r.extractLsb' 2 1 ++ r.extractLsb' 3 1 ++ r.extractLsb' 0 2 := by
  rw [expand_eq_append, BitVec.extractLsb'_append_eq_right]

/-- Settles O8: `contract` reads r back and finds every image; the table is evaluated. -/
theorem expansionImagesAndTable : Obligations.ExpansionImagesAndTable :=
  ⟨fun r => (contract_expand r).symm, expand_injective, exists_expand_eq_iff,
    fun r => ⟨expand_high_nibble r, expand_low_nibble r⟩, by decide⟩

end Sys2Proof.Machine
end

section
/-! The S-boxes (42_sboxes.md): the ROM entries as printed, the row and the column of a word, and the
rows as permutations of 0..7. -/

namespace Sys2Proof.Machine

/-! ### The entries, the row and the column (R68 to R70) -/

/-- R70: bit 3 of n is the row, bits 2 down to 0 the column, whatever the table holds. -/
theorem sboxLookup_append (table : Vector (Vector SBoxOutput 8) 2) (row : BitVec 1)
    (col : BitVec 3) :
    sboxLookup table (row ++ col) = (table.get row.toFin).get col.toFin := by
  rw [sboxLookup, BitVec.extractLsb'_append_eq_left, BitVec.extractLsb'_append_eq_right]

/-- R68: S1 as a 16-entry ROM, its rows one after the other. -/
theorem toNat_s1 : ∀ n : SBoxInput,
    (s1 n).toNat = [5, 2, 1, 6, 3, 4, 7, 0, 1, 4, 6, 2, 0, 7, 5, 3].getD n.toNat 8 := by
  decide

/-- R69: S2 as a 16-entry ROM. -/
theorem toNat_s2 : ∀ n : SBoxInput,
    (s2 n).toNat = [4, 0, 6, 5, 7, 1, 3, 2, 5, 3, 0, 7, 6, 2, 1, 4].getD n.toNat 8 := by
  decide

/-- Settles O9: the 16 entries of each ROM are evaluated; row and column are those of any table. -/
theorem sboxEntriesAsPrinted : Obligations.SboxEntriesAsPrinted :=
  ⟨fun n => ⟨toNat_s1 n, toNat_s2 n⟩,
    fun row col => ⟨sboxLookup_append s1Table row col, sboxLookup_append s2Table row col⟩⟩

/-! ### The rows as permutations (R71) -/

/-- A row without a repeated entry takes each of the eight values, in one column. -/
theorem existsUnique_sboxLookup_append {table : Vector (Vector SBoxOutput 8) 2} {row : BitVec 1}
    (hrow : Function.Injective fun col : BitVec 3 => sboxLookup table (row ++ col))
    (v : SBoxOutput) : ∃! col : BitVec 3, sboxLookup table (row ++ col) = v :=
  (Finite.injective_iff_bijective.mp hrow).existsUnique v

/-- No table of 3-bit entries makes an injective S-box: there are 16 words and eight values. -/
theorem not_injective_sboxLookup (table : Vector (Vector SBoxOutput 8) 2) :
    ¬ Function.Injective (sboxLookup table) := by
  intro hinj
  have hcard := Fintype.card_le_of_injective _ hinj
  simp only [← FinEnum.card_eq_fintypeCard, FinEnum.card_bitVec] at hcard
  omega

theorem s1_row_injective (row : BitVec 1) :
    Function.Injective fun col : BitVec 3 => s1 (row ++ col) := by
  unfold Function.Injective
  decide +revert

theorem s2_row_injective (row : BitVec 1) :
    Function.Injective fun col : BitVec 3 => s2 (row ++ col) := by
  unfold Function.Injective
  decide +revert

/-- Settles O10: no row repeats an entry, so each is a permutation; 16 words share eight values. -/
theorem sboxRowsArePermutations : Obligations.SboxRowsArePermutations :=
  ⟨fun row v => ⟨existsUnique_sboxLookup_append (s1_row_injective row) v,
      existsUnique_sboxLookup_append (s2_row_injective row) v⟩,
    not_injective_sboxLookup s1Table, not_injective_sboxLookup s2Table, by decide⟩

end Sys2Proof.Machine
end

section
/-! The round function (43_round_function.md): its two halves, each one S-box of one nibble, and the
operands that each half depends on. -/

namespace Sys2Proof.Machine

/-! ### The four steps on numbers (R72) -/

/-- Step 2 of R72 works nibble by nibble: each S-box reads E's nibble XOR the subkey's. -/
theorem roundFunction_eq_append (r : HalfBlock) (k : Subkey) :
    roundFunction r k = s1 ((expand r).extractLsb' 4 4 ^^^ k.extractLsb' 4 4) ++
      s2 ((expand r).extractLsb' 0 4 ^^^ k.extractLsb' 0 4) := by
  rw [roundFunction, substitute, BitVec.extractLsb'_xor, BitVec.extractLsb'_xor]

theorem roundFunction_high (r : HalfBlock) (k : Subkey) :
    (roundFunction r k).extractLsb' 3 3 =
      s1 ((expand r).extractLsb' 4 4 ^^^ k.extractLsb' 4 4) := by
  rw [roundFunction_eq_append, BitVec.extractLsb'_append_eq_left]

theorem roundFunction_low (r : HalfBlock) (k : Subkey) :
    (roundFunction r k).extractLsb' 0 3 =
      s2 ((expand r).extractLsb' 0 4 ^^^ k.extractLsb' 0 4) := by
  rw [roundFunction_eq_append, BitVec.extractLsb'_append_eq_right]

/-- Step 4 of R72: S2 gives at most three bits, so the OR adds it below S1's value. -/
theorem toNat_substitute (x : ExpandedHalf) :
    (substitute x).toNat = 8 * (s1 (x.extractLsb' 4 4)).toNat + (s2 (x.extractLsb' 0 4)).toNat := by
  rw [substitute, BitVec.toNat_append, ← Nat.shiftLeft_add_eq_or_of_lt (BitVec.isLt _),
    Nat.shiftLeft_eq, Nat.mul_comm]

/-- Step 3 of R72 on numbers. -/
theorem toNat_nibbles (x : ExpandedHalf) :
    (x.extractLsb' 4 4).toNat = x.toNat / 16 ∧ (x.extractLsb' 0 4).toNat = x.toNat % 16 := by
  have hx : x.toNat < 256 := x.isLt
  simp only [BitVec.extractLsb'_toNat, Nat.shiftRight_eq_div_pow]
  omega

/-- Settles O11: the nibbles of the mixed byte as numbers, looked up in the two ROMs. -/
theorem roundFunctionAsWritten : Obligations.RoundFunctionAsWritten := by
  refine ⟨fun r k => ?_, by decide, by decide, by decide, by decide, by decide⟩
  obtain ⟨hhigh, hlow⟩ := toNat_nibbles (expand r ^^^ k)
  rw [roundFunction, toNat_substitute, toNat_s1, toNat_s2, hhigh, hlow, BitVec.toNat_xor]

/-! ### What each half depends on (R73) -/

/-- A cut of a cut that stays inside it is one cut. -/
theorem extractLsb'_extractLsb' {w : Nat} (x : BitVec w) (start start' : Nat) {len len' : Nat}
    (h : start' + len' ≤ len) :
    (x.extractLsb' start len).extractLsb' start' len' = x.extractLsb' (start + start') len' := by
  refine BitVec.eq_of_getLsbD_eq fun j hj => ?_
  have hinside : start' + j < len := by omega
  simp [BitVec.getLsbD_extractLsb', hj, hinside, Nat.add_assoc, -BitVec.getLsbD_eq_getElem]

/-- The nibble S1 reads is wired to r[5:2] alone. -/
theorem expand_high_nibble_congr {r r' : HalfBlock}
    (hr : r.extractLsb' 2 4 = r'.extractLsb' 2 4) :
    (expand r).extractLsb' 4 4 = (expand r').extractLsb' 4 4 := by
  have hcut (q : HalfBlock) : (expand q).extractLsb' 4 4 =
      (q.extractLsb' 2 4).extractLsb' 2 2 ++ (q.extractLsb' 2 4).extractLsb' 0 1 ++
        (q.extractLsb' 2 4).extractLsb' 1 1 := by
    simp [expand_high_nibble, extractLsb'_extractLsb']
  rw [hcut r, hcut r', hr]

/-- The nibble S2 reads is wired to r[3:0] alone. -/
theorem expand_low_nibble_congr {r r' : HalfBlock}
    (hr : r.extractLsb' 0 4 = r'.extractLsb' 0 4) :
    (expand r).extractLsb' 0 4 = (expand r').extractLsb' 0 4 := by
  have hcut (q : HalfBlock) : (expand q).extractLsb' 0 4 =
      (q.extractLsb' 0 4).extractLsb' 2 1 ++ (q.extractLsb' 0 4).extractLsb' 3 1 ++
        (q.extractLsb' 0 4).extractLsb' 0 2 := by
    simp [expand_low_nibble, extractLsb'_extractLsb']
  rw [hcut r, hcut r', hr]

theorem roundFunction_high_congr {r r' : HalfBlock} {k k' : Subkey}
    (hr : r.extractLsb' 2 4 = r'.extractLsb' 2 4) (hk : k.extractLsb' 4 4 = k'.extractLsb' 4 4) :
    (roundFunction r k).extractLsb' 3 3 = (roundFunction r' k').extractLsb' 3 3 := by
  rw [roundFunction_high, roundFunction_high, expand_high_nibble_congr hr, hk]

theorem roundFunction_low_congr {r r' : HalfBlock} {k k' : Subkey}
    (hr : r.extractLsb' 0 4 = r'.extractLsb' 0 4) (hk : k.extractLsb' 0 4 = k'.extractLsb' 0 4) :
    (roundFunction r k).extractLsb' 0 3 = (roundFunction r' k').extractLsb' 0 3 := by
  rw [roundFunction_low, roundFunction_low, expand_low_nibble_congr hr, hk]

/-! ### Not one-to-one under any subkey (R73 (c)) -/

/-- E only copies bits, so it distributes over XOR. -/
theorem expand_xor (r r' : HalfBlock) : expand (r ^^^ r') = expand r ^^^ expand r' := by
  refine BitVec.eq_of_getLsbD_eq fun j hj => ?_
  rw [BitVec.getLsbD_xor, getLsbD_expand _ hj, getLsbD_expand _ hj, getLsbD_expand _ hj,
    BitVec.getLsbD_xor]

/-- No two bits of the high nibble are copies of one bit of r, so any value of it can be had. -/
theorem expand_contract_high_nibble (e : ExpandedHalf) :
    (expand (contract e)).extractLsb' 4 4 = e.extractLsb' 4 4 := by
  have hrange : ∀ j < 4, expansionWiring.reverse.getD (4 + j) 6 < 6 := by decide
  have hwires : ∀ j < 4,
      contractionWiring.getD (expansionWiring.reverse.getD (4 + j) 6) 8 = 4 + j := by decide
  refine BitVec.eq_of_getLsbD_eq fun j hj => ?_
  rw [BitVec.getLsbD_extractLsb', BitVec.getLsbD_extractLsb', getLsbD_expand _ (by omega),
    getLsbD_contract e (hrange j hj), hwires j hj]

/-- r[5] and r[4] reach S1 alone, and S1(5) = S1(9): where S1's word is 5, flipping both bits makes
it 9 and changes nothing. -/
theorem roundFunction_flip_eq {r : HalfBlock} {k : Subkey}
    (hr : (expand r).extractLsb' 4 4 ^^^ k.extractLsb' 4 4 = 5#4) :
    roundFunction (r ^^^ 0b110000#6) k = roundFunction r k := by
  have hflip : (expand (r ^^^ 0b110000#6)).extractLsb' 4 4 ^^^ k.extractLsb' 4 4 = 9#4 := by
    rw [expand_xor, BitVec.extractLsb'_xor, BitVec.xor_assoc, BitVec.xor_comm _ (k.extractLsb' 4 4),
      ← BitVec.xor_assoc, hr]
    decide
  have hkept : (r ^^^ 0b110000#6).extractLsb' 0 4 = r.extractLsb' 0 4 := by
    rw [BitVec.extractLsb'_xor]
    exact BitVec.xor_zero
  have hs1 : s1 9#4 = s1 5#4 := by decide
  rw [roundFunction_eq_append, roundFunction_eq_append r, hflip, hr, hs1,
    expand_low_nibble_congr hkept]

theorem not_injective_roundFunction (k : Subkey) :
    ¬ Function.Injective fun r => roundFunction r k := by
  intro hinj
  have hword : (expand (contract (0b01010000#8 ^^^ k))).extractLsb' 4 4 ^^^ k.extractLsb' 4 4 =
      5#4 := by
    rw [expand_contract_high_nibble, ← BitVec.extractLsb'_xor, BitVec.xor_assoc, BitVec.xor_self]
    decide
  have hfixed := hinj (roundFunction_flip_eq hword)
  simp at hfixed

/-- Settles O12: (a) is the definition, (b) the two congruences, (c) the flip; the values of f are
evaluated. -/
theorem roundFunctionDependences : Obligations.RoundFunctionDependences :=
  ⟨fun _ _ _ _ hx => congrArg substitute hx, fun _ _ _ _ => roundFunction_high_congr,
    fun _ _ _ _ => roundFunction_low_congr, not_injective_roundFunction,
    by decide, by decide, by decide, by decide⟩

end Sys2Proof.Machine
end

section
/-! The Feistel engine (44_feistel_engine.md): decryption undoes encryption round by round, the loading
of a command, the steps of a command in progress, and the runs of ENC, DEC and SRCH with an eager
host. -/

namespace Sys2Proof.Machine

/-! ### Encryption and decryption undo each other (R78, R83, R84) -/

theorem xor_xor_cancel_left {w : Nat} (x y : BitVec w) : x ^^^ (x ^^^ y) = y := by
  rw [← BitVec.xor_assoc, BitVec.xor_self, BitVec.zero_xor]

/-- A decrypt step undoes the encrypt step: f reads the half both leave, whatever f is (R78). -/
theorem decryptStep_encryptStep (f : HalfBlock → Subkey → HalfBlock) (k : Subkey)
    (lr : HalfBlock × HalfBlock) : decryptStep f k (encryptStep f k lr) = lr :=
  Prod.ext (xor_xor_cancel_left (f lr.2 k) lr.1) rfl

theorem encryptStep_decryptStep (f : HalfBlock → Subkey → HalfBlock) (k : Subkey)
    (lr : HalfBlock × HalfBlock) : encryptStep f k (decryptStep f k lr) = lr :=
  Prod.ext rfl (xor_xor_cancel_left (f lr.1 k) lr.2)

/-- Steps that are each undone are undone together, in the reverse order. -/
theorem foldl_reverse_foldl {α ι : Type} {act undo : α → ι → α} (h : ∀ x i, undo (act x i) i = x)
    (is : List ι) (x : α) : is.reverse.foldl undo (is.foldl act x) = x := by
  induction is generalizing x with
  | nil => rfl
  | cons i is ih =>
    rw [List.foldl_cons, List.reverse_cons, List.foldl_append, ih (act x i)]
    exact h x i

/-- The round trip for any round function and any subkeys (R83). -/
theorem decryptWith_encryptWith (f : HalfBlock → Subkey → HalfBlock) (ks : RoundIndex → Subkey)
    (b : Block) : decryptWith f ks (encryptWith f ks b) = b := by
  have horder : decryptOrder = encryptOrder.reverse := rfl
  rw [decryptWith, encryptWith, splitBlock_joinPair, horder,
    foldl_reverse_foldl fun lr i => decryptStep_encryptStep f (ks i) lr, joinPair_splitBlock]

theorem encryptWith_decryptWith (f : HalfBlock → Subkey → HalfBlock) (ks : RoundIndex → Subkey)
    (b : Block) : encryptWith f ks (decryptWith f ks b) = b := by
  have horder : encryptOrder = decryptOrder.reverse := rfl
  rw [encryptWith, decryptWith, splitBlock_joinPair, horder,
    foldl_reverse_foldl fun lr i => encryptStep_decryptStep f (ks i) lr, joinPair_splitBlock]

@[simp] theorem decrypt_encrypt (b : Block) (k : MasterKey) : decrypt (encrypt b k) k = b :=
  decryptWith_encryptWith roundFunction (keySchedule k) b

@[simp] theorem encrypt_decrypt (b : Block) (k : MasterKey) : encrypt (decrypt b k) k = b :=
  encryptWith_decryptWith roundFunction (keySchedule k) b

/-- Settles O15: under one key each function is the other's inverse on both sides. -/
theorem encryptPermutesTheBlocks : Obligations.EncryptPermutesTheBlocks := by
  intro k
  have hdec : Function.LeftInverse (fun b => decrypt b k) fun b => encrypt b k :=
    fun b => decrypt_encrypt b k
  have henc : Function.LeftInverse (fun b => encrypt b k) fun b => decrypt b k :=
    fun b => encrypt_decrypt b k
  exact ⟨⟨hdec.injective, henc.surjective⟩, ⟨henc.injective, hdec.surjective⟩⟩

/-- Settles O13: the two folds written out round by round; the worked values are evaluated. -/
theorem encryptAndDecryptAsWritten : Obligations.EncryptAndDecryptAsWritten := by
  have hworked : encrypt 2730#12 341#9 = 1296#12 := by decide +kernel
  refine ⟨?encrypt, ?decrypt, hworked, hworked ▸ decrypt_encrypt _ _, by decide,
    by decide, by decide +kernel⟩
  case encrypt =>
    rintro p k _ _ _ _ _ _ _ _ rfl rfl rfl rfl rfl rfl rfl rfl
    rfl
  case decrypt =>
    rintro c k _ _ _ _ _ _ _ _ rfl rfl rfl rfl rfl rfl rfl rfl
    rfl

/-! ### The commands at acceptance (R76, R79, R80) -/

/-- Settles O28: idle or busy, the acceptance of NOP answers the state it is given. -/
theorem nopWritesNothing : Obligations.NopWritesNothing := by
  intro s
  by_cases hp : s.phase = .idle
  · exact exec_of_idle .nop hp
  · exact exec_of_busy .nop hp

/-- What the loading of a command writes and leaves, field by field (R11, R13, R79, R80). -/
theorem loadCommand_fields (s : State) (op : Operation) (key : MasterKey) (block : Block)
    (ri : RoundIndex) :
    let t := loadCommand s op key block ri
    t.opr = op ∧ t.keyr = key ∧ t.blkr = block ∧ t.l = block.extractLsb' 6 6 ∧
      t.r = block.extractLsb' 0 6 ∧ t.ri = ri ∧ t.phase = .round ∧ busy t = true ∧
      t.outLog = s.outLog ∧ t.cmdStream = s.cmdStream ∧ t.hostScript = s.hostScript ∧
      t.hostRest = s.hostRest ∧ t.freeCount = s.freeCount :=
  ⟨rfl, rfl, rfl, rfl, rfl, rfl, rfl, rfl, rfl, rfl, rfl, rfl, rfl⟩

/-- Settles O29: an idle engine loads the command, with RI = 1. -/
theorem encLoadsItsRegisters : Obligations.EncLoadsItsRegisters := fun s block key hp =>
  ⟨_, exec_of_idle (.enc block key) hp, loadCommand_fields s .enc key block .one⟩

/-- Settles O30: an idle engine loads the command, with RI = 4. -/
theorem decLoadsItsRegisters : Obligations.DecLoadsItsRegisters := fun s block key hp =>
  ⟨_, exec_of_idle (.dec block key) hp, loadCommand_fields s .dec key block .four⟩

/-! ### The steps of a command in progress (R77, R78, R81) -/

theorem roundCycle_halves (s : State) :
    ((roundCycle s).l, (roundCycle s).r) = stepOf s.opr (currentSubkey s) (s.l, s.r) := by
  simp [roundCycle_eq]

/-- A ROUND step of any command: new halves from the old, RI moved or PHASE, the rest kept. -/
theorem exists_round_step {s : State} (hp : s.phase = .round) (hrst : (hostNow s).rst = false) :
    ∃ t, step s = .next t ∧
      (t.l, t.r) = stepOf s.opr (keySchedule s.keyr s.ri) (s.l, s.r) ∧
      (roundAfter s.opr s.ri = none → t.phase = .emit ∧ t.ri = s.ri) ∧
      (∀ j, roundAfter s.opr s.ri = some j → t.phase = .round ∧ t.ri = j) ∧
      t.opr = s.opr ∧ t.keyr = s.keyr ∧ t.blkr = s.blkr ∧ t.outLog = s.outLog := by
  obtain ⟨hopr, hkeyr, hblkr, hlog, _⟩ := roundCycle_frame (beginCycle s)
  refine ⟨_, step_of_round hrst hp, roundCycle_halves (beginCycle s), fun hlast => ?_,
    fun j hj => roundCycle_next (s := beginCycle s) hp hj, hopr, hkeyr, hblkr, hlog⟩
  rw [roundCycle_of_none (s := beginCycle s) hlast]
  exact ⟨rfl, rfl⟩

theorem roundNumber_lt_of_ne_four {i : RoundIndex} (h : i ≠ .four) : roundNumber i < 4 := by
  revert h
  cases i <;> decide

theorem roundNumber_gt_of_ne_one {i : RoundIndex} (h : i ≠ .one) : roundNumber i > 1 := by
  revert h
  cases i <;> decide

theorem stepOf_of_ne_enc {op : Operation} (h : op ≠ .enc) :
    stepOf op = decryptStep roundFunction := by
  cases op with
  | enc => exact absurd rfl h
  | dec => rfl
  | srch => rfl

/-- Settles O33: the ROUND step in the direction of ENC. -/
theorem encryptRoundStep : Obligations.EncryptRoundStep := by
  refine ⟨fun s hp hop hrst => ?_, by decide⟩
  obtain ⟨t, ht, hlr, hlast, hnext, hframe⟩ := exists_round_step hp hrst
  rw [hop] at hlr hlast hnext
  obtain ⟨hl, hr⟩ := Prod.mk.inj hlr
  refine ⟨t, ht, hl, hr, fun hri => hlast (hri ▸ rfl), fun hri => ?_, hframe⟩
  obtain ⟨j, hj, hnum⟩ := roundAfter_enc_of_lt (roundNumber_lt_of_ne_four hri)
  obtain ⟨hphase, rfl⟩ := hnext j hj
  exact ⟨hphase, hnum⟩

/-- Settles O34: the ROUND step in the direction of DEC and SRCH, and that the two directions undo
each other. -/
theorem decryptRoundStep : Obligations.DecryptRoundStep := by
  refine ⟨fun s hp hop hrst => ?_,
    fun f k lr => ⟨decryptStep_encryptStep f k lr, encryptStep_decryptStep f k lr⟩, by decide⟩
  obtain ⟨t, ht, hlr, hlast, hnext, hframe⟩ := exists_round_step hp hrst
  rw [stepOf_of_ne_enc hop] at hlr
  rw [roundAfter_of_ne_enc hop] at hlast hnext
  obtain ⟨hl, hr⟩ := Prod.mk.inj hlr
  refine ⟨t, ht, hl, hr, fun hri => hlast (hri ▸ rfl), fun hri => ?_, hframe⟩
  obtain ⟨j, hj, hnum⟩ := previousRound_of_gt (roundNumber_gt_of_ne_one hri)
  obtain ⟨hphase, rfl⟩ := hnext j hj
  exact ⟨hphase, hnum⟩

/-- Settles O35: the command ends when its record is taken, and its end writes PHASE and the log. -/
theorem emitStepOfEncAndDec : Obligations.EmitStepOfEncAndDec := by
  intro s hp hop hrst hready
  refine ⟨_, step_of_emit_taken hrst hp hready, ?_⟩
  rw [emitCycle_ends (s := beginCycle s) fun h => absurd h hop]
  exact ⟨rfl, rfl, rfl, rfl, rfl, rfl, rfl, rfl⟩

/-! ### A command's run with an eager host (R82, R86, R92) -/

/-- With an eager host every step of a busy engine is one of those left to its command. -/
theorem stepsLeft_step {s t : State} (he : EagerHost s) (hbusy : s.phase ≠ .idle)
    (h : step s = .next t) : stepsLeft s = stepsLeft t + 1 := by
  have hpos := stepsLeft_pos hbusy
  have hstream : t.cmdStream = s.cmdStream :=
    (stepCase_cmdStream_of_busy (stepCase_of_step h) hbusy).trans (streamNow_of_eagerHost he)
  have hcount := stepsToEnd_step he (by rw [stepsToEnd]; omega) h
  rw [stepsToEnd, stepsToEnd, hstream] at hcount
  omega

/-- Before the steps left to it have run, a command is still in progress. -/
theorem run_inProgress {base : List RecordWord} {i : Instr} {n : Nat} {s : State}
    (h : InProgress base i s) (hinv : DatapathInv s) (he : EagerHost s) (hn : n < stepsLeft s) :
    ∃ t, run n s = .next t ∧ InProgress base i t := by
  induction n generalizing s with
  | zero => exact ⟨s, run_zero s, h⟩
  | succ n ih =>
    obtain ⟨hbusy, _⟩ := id h
    obtain ⟨u, hu, _⟩ := exists_step s
    have hcount := stepsLeft_step he hbusy hu
    obtain hprog | ⟨hidle, _⟩ :=
      inProgress_step h hinv (congrArg HostCycle.rst (hostNow_of_eagerHost he)) hu
    · obtain ⟨t, ht, hprog'⟩ :=
        ih hprog (step_keeps_datapathInv hinv hu) (eagerHost_step he hu) (by omega)
      exact ⟨t, (run_succ_of_step hu).trans ht, hprog'⟩
    · have hnone := stepsLeft_of_idle hidle
      omega

theorem inProgress_outLog_of_one_record {base : List RecordWord} {i : Instr} {s : State}
    (h : InProgress base i s) (hone : (rowOf i).records = 1) : s.outLog = base := by
  cases i with
  | nop => cases hone
  | enc block key | dec block key =>
    obtain ⟨_, _, _, _, hlog⟩ := h
    exact hlog
  | srch block => cases hone

section
variable {s : State} {i : Instr} {ws : List CommandWord} (hp : s.phase = .idle) (he : EagerHost s)
  (hws : s.cmdStream = encode i :: ws)
include hp he hws

/-- The command at the head of an eager host's stream runs to its end and hands over its records. -/
theorem run_encoded :
    ∃ t, run (stepsOf i) s = .next t ∧ t.outLog = s.outLog ++ recordsOf i ∧ t.phase = .idle ∧
      t.cmdStream = ws := by
  obtain ⟨t, ht, hidle, hstream, hlog⟩ := run_stepsOf hp he hws
  rw [decode_encode] at ht hlog
  exact ⟨t, ht, hlog, hidle, hstream⟩

/-- From its acceptance to its last step the command is in progress. -/
theorem run_encoded_inProgress (hi : i ≠ .nop) {n : Nat} (hfirst : 1 ≤ n) (hlast : n < stepsOf i) :
    ∃ t, run n s = .next t ∧ InProgress s.outLog i t := by
  have hword : offeredWord s = some (encode i) := by
    rw [offeredWord_of_eagerHost he, hws, List.head?_cons]
  have hstep : step s = .next (loaded i (popCommand (beginCycle s))) :=
    step_of_accept (congrArg HostCycle.rst (hostNow_of_eagerHost he)) hp hword (decode_encode i)
  have hp' : (popCommand (beginCycle s)).phase = .idle := hp
  have hcount := stepsOf_eq_stepsLeft_loaded i hp'
  obtain ⟨m, rfl⟩ := Nat.exists_eq_add_of_le' hfirst
  rw [run_succ_of_step hstep]
  exact run_inProgress (inProgress_loaded _ hi) (datapathInv_loaded i hp')
    (eagerHost_step he hstep) (by omega)

/-- A command of one record hands nothing over before its last step. -/
theorem run_encoded_of_one_record (hone : (rowOf i).records = 1) {n : Nat} (hfirst : 1 ≤ n)
    (hlast : n < stepsOf i) :
    ∃ t, run n s = .next t ∧ busy t = true ∧ t.outLog = s.outLog := by
  have hi : i ≠ .nop := by rintro rfl; cases hone
  obtain ⟨t, ht, hprog⟩ := run_encoded_inProgress hp he hws hi hfirst hlast
  obtain ⟨hbusy, _⟩ := id hprog
  exact ⟨t, ht, (busy_iff t).mpr hbusy, inProgress_outLog_of_one_record hprog hone⟩

end

/-- Settles O45: the run of ENC, which has one record. -/
theorem encRunsInSixSteps : Obligations.EncRunsInSixSteps := fun _ _ _ _ hp he hws =>
  ⟨run_encoded hp he hws, fun _ hfirst hlast =>
    run_encoded_of_one_record hp he hws rfl hfirst (Nat.lt_succ_of_le hlast)⟩

/-- Settles O46: the run of DEC, which has one record. -/
theorem decRunsInSixSteps : Obligations.DecRunsInSixSteps := fun _ _ _ _ hp he hws =>
  ⟨run_encoded hp he hws, fun _ hfirst hlast =>
    run_encoded_of_one_record hp he hws rfl hfirst (Nat.lt_succ_of_le hlast)⟩

/-- Settles O47: the run of SRCH; in progress it is busy. -/
theorem srchRunsIn2561Steps : Obligations.SrchRunsIn2561Steps := by
  refine fun s block ws hp he hws => ⟨run_encoded hp he hws, fun n hfirst hlast => ?_⟩
  obtain ⟨t, ht, hbusy, _⟩ :=
    run_encoded_inProgress hp he hws nofun hfirst (Nat.lt_succ_of_le hlast)
  exact ⟨t, ht, (busy_iff t).mpr hbusy⟩

/-- Settles O14: the round trip of the pure functions, and the stream of the two commands run to its
end. -/
theorem roundTripForEveryBlockAndKey : Obligations.RoundTripForEveryBlockAndKey := by
  refine ⟨fun f ks b => ⟨decryptWith_encryptWith f ks b, encryptWith_decryptWith f ks b⟩,
    fun b k => ⟨decrypt_encrypt b k, encrypt_decrypt b k⟩, fun s b k hp he hws => ?_⟩
  have hcount : stepsToEnd s = 12 := by
    simp [stepsToEnd, stepsLeft_of_idle hp, hws, stepsOfStream, stepsOf]
  obtain ⟨t, ht, _, _, hlog⟩ := run_stepsToEnd (datapathInv_of_idle hp) he hcount
  refine ⟨t, ht, ?_⟩
  simp [hlog, owedLog, pendingRecords_of_idle hp, hws, recordsOfStream, recordsOf]

end Sys2Proof.Machine
end

section
/-! The search controller (45_search_controller.md): the table of a search, and SRCH's acceptance and
emit-and-advance step. -/

namespace Sys2Proof.Machine

/-! ### The table of a search (R87, R88) -/

theorem length_search (c : Block) : (search c).length = 512 := by simp [search]

/-- The keys of a search in its order, as numbers (R88). -/
theorem search_keys (c : Block) : (search c).map (fun p => p.1.toNat) = List.range 512 := by
  have hkey : ∀ n ∈ List.range 512, (trial c n).1.toNat = n := fun n hn =>
    (BitVec.toNat_ofNat n 9).trans (Nat.mod_eq_of_lt (List.mem_range.mp hn))
  rw [search, List.map_map]
  exact (List.map_congr_left hkey).trans (List.map_id' _)

theorem search_keys_nodup (c : Block) : ((search c).map Prod.fst).Nodup := by
  refine List.Nodup.of_map BitVec.toNat ?_
  rw [List.map_map]
  exact search_keys c ▸ List.nodup_range

/-- The pair of a key is the one that stands at the key's number. -/
theorem mem_search (c : Block) (k : MasterKey) : (k, decrypt c k) ∈ search c := by
  have hpair : trial c k.toNat = (k, decrypt c k) := by
    rw [trial, BitVec.ofNat_toNat, BitVec.setWidth_eq]
  exact hpair ▸ List.mem_of_getElem? (search_getElem? c k.isLt)

/-- Settles O16: the search is the list of the trials of 0, ..., 511, and decryption under the key of
the encryption gives the plaintext back. -/
theorem searchTriesEveryKeyOnceInOrder : Obligations.SearchTriesEveryKeyOnceInOrder := by
  refine fun c => ⟨length_search c, fun n hn => search_getElem? c hn, search_keys c,
    search_keys_nodup c, mem_search c, ?_⟩
  rintro p k rfl
  simpa using mem_search (encrypt p k) k

/-! ### The steps of SRCH (R89, R91) -/

/-- Settles O31: an idle engine loads the command, with KEYR = 0 and RI = 4. -/
theorem srchLoadsItsRegisters : Obligations.SrchLoadsItsRegisters := fun s block hp =>
  ⟨_, exec_of_idle (.srch block) hp, loadCommand_fields s .srch 0#9 block .four⟩

/-- Settles O36: the record of the old KEYR is taken in both branches; at 511 that ends the command,
before that the next key's trial starts. -/
theorem emitAndAdvanceStepOfSrch : Obligations.EmitAndAdvanceStepOfSrch := by
  intro s hp hop hrst hready
  obtain ⟨hlog, hopr, hblkr, _⟩ := emitCycle_frame (beginCycle s)
  refine ⟨_, step_of_emit_taken hrst hp hready, hlog, hblkr, hopr, fun hk => ?last, fun hk => ?next⟩
  case last =>
    rw [emitCycle_ends (s := beginCycle s) fun _ => hk]
    exact ⟨rfl, rfl, rfl, rfl, rfl⟩
  case next =>
    rw [emitCycle_advances (s := beginCycle s) hop hk]
    exact ⟨rfl, toNat_key_succ hk, rfl, rfl, rfl⟩

end Sys2Proof.Machine
end

section
/-! The absence of exceptions (60_exceptions.md): every step, every command and every run answers a next
state. -/

namespace Sys2Proof.Machine

/-! ### A next state from every state (R100, R112) -/

/-- An idle engine accepts the command, a busy one lets it wait. -/
theorem exists_exec (i : Instr) (s : State) : ∃ t, exec i s = .next t := by
  by_cases hp : s.phase = .idle
  · exact ⟨loaded i s, exec_of_idle i hp⟩
  · exact ⟨s, exec_of_busy i hp⟩

theorem exists_run (n : Nat) (s : State) : ∃ t, run n s = .next t := by
  induction n generalizing s with
  | zero => exact ⟨s, run_zero s⟩
  | succ n ih =>
    obtain ⟨u, hstep, _⟩ := exists_step s
    obtain ⟨t, hrun⟩ := ih u
    exact ⟨t, (run_succ_of_step hstep).trans hrun⟩

/-- Settles O37: a step by its cases, a command by PHASE, a run by induction on its steps. -/
theorem everyStepAnswersANextState : Obligations.EveryStepAnswersANextState := by
  refine ⟨fun s => ?step, exists_exec, exists_run⟩
  case step =>
    obtain ⟨t, hstep, _⟩ := exists_step s
    exact ⟨t, hstep⟩

end Sys2Proof.Machine
end

section
/-! Reset and the host's change of mind (70_reset_and_hazards.md): the cycle with `rst` = 1, and what an
idle engine accepts when the host changes or withdraws the word that waits. -/

namespace Sys2Proof.Machine

/-! ### The reset cycle (R113, R114, R103 (1)) -/

/-- The outputs of an idle engine (R16). -/
theorem outputs_of_idle {s : State} (hp : s.phase = .idle) :
    busy s = false ∧ outValid s = false ∧ cmdReady s false = true := by
  simp [busy, outValid, cmdReady, hp]

/-- Reset wins over acceptance in every PHASE (R16). -/
theorem cmdReady_of_rst (s : State) : cmdReady s true = false := by simp [cmdReady]

/-- Settles O19: the step is the reset cycle whatever PHASE is, so its result is idle and keeps the log
and the stream; the result's outputs follow from IDLE. -/
theorem resetCycleAbandonsTheCommand : Obligations.ResetCycleAbandonsTheCommand := by
  intro s hrst
  have hidle : (resetCycle (beginCycle s)).phase = .idle := resetCycle_phase _
  obtain ⟨hbusy, hvalid, hready⟩ := outputs_of_idle hidle
  exact ⟨_, step_of_rst hrst, hidle, rfl, rfl, rfl, rfl, hbusy, hvalid, hready, cmdReady_of_rst s⟩

/-! ### The host changes its mind (R116, U11) -/

section
variable {s : State}

theorem streamNow_of_restream {ws : List CommandWord} (h : (hostNow s).cmd = .restream ws) :
    streamNow s = ws := by
  simp only [streamNow, h]

theorem offeredWord_of_restream {ws : List CommandWord} (h : (hostNow s).cmd = .restream ws) :
    offeredWord s = ws.head? := by
  simp only [offeredWord, h]

theorem streamNow_of_withhold (h : (hostNow s).cmd = .withhold) : streamNow s = s.cmdStream := by
  simp only [streamNow, h]

theorem offeredWord_of_withhold (h : (hostNow s).cmd = .withhold) : offeredWord s = none := by
  simp only [offeredWord, h]

end

/-- Settles O27: a changed word is the one on offer, so the step accepts it; a dropped word and a
dropped `cmd_valid` leave none on offer, so the engine holds. -/
theorem lastPresentedCommandIsAccepted : Obligations.LastPresentedCommandIsAccepted := by
  refine fun s hp hrst => ⟨fun w ws hcmd => ?changed, fun hcmd => ?dropped, fun hcmd => ?withheld⟩
  case changed =>
    rw [stepRunsTheAcceptedCommand s w hp hrst (offeredWord_of_restream hcmd),
      streamNow_of_restream hcmd, List.tail_cons]
  case dropped =>
    rw [idleEngineHoldsWithoutACommand s hp hrst (offeredWord_of_restream hcmd),
      streamNow_of_restream hcmd]
  case withheld =>
    rw [idleEngineHoldsWithoutACommand s hp hrst (offeredWord_of_withhold hcmd),
      streamNow_of_withhold hcmd]

end Sys2Proof.Machine
end

section
/-! Placing a table word (notes/assumptions/4.md and 6.md): the cycle put in front takes the placed word
off the stream again, so nothing of the host's later behaviour is used up. -/

namespace Sys2Proof.Machine

/-- The acceptance of a placed word takes away exactly what placing it added: the word and its cycle. -/
theorem popCommand_beginCycle_offerNext (s : State) (w : CommandWord) :
    popCommand (beginCycle (offerNext s w)) = { s with phase := .idle } := rfl

theorem step_offerNext (s : State) (w : CommandWord) :
    step (offerNext s w) = exec (decode w) { s with phase := .idle } := by
  have haccept : step (offerNext s w) = exec (decode w) (popCommand (beginCycle (offerNext s w))) :=
    step_of_idle_offer rfl rfl rfl
  rw [haccept, popCommand_beginCycle_offerNext]

/-- A table word of the port's width is offered in the next cycle. -/
theorem withFetchWord_of_lt {w : Nat} (s : State) (nbits : Nat) (h : w < 2 ^ 23) :
    s.withFetchWord nbits w = offerNext s (BitVec.ofNat 23 w) := offerBitsNext_ok s h

/-- A pattern wider than the port is not placed. -/
theorem withFetchWord_of_wide {w : Nat} (s : State) (nbits : Nat) (h : ¬ w < 2 ^ 23) :
    s.withFetchWord nbits w = s := offerBitsNext_wide s h

/-- Settles O51: a pattern decodes exactly when it fits the port; then it is the word the next step
accepts, and otherwise nothing is placed. -/
theorem placedWordRunsNext : Obligations.PlacedWordRunsNext := by
  intro s nbits w
  rcases decodeTableWord_cases nbits w with ⟨hlt, hdecode⟩ | ⟨hwide, hdecode⟩
  · refine ⟨fun i hi => ?_, fun hnone => by simp [hdecode] at hnone⟩
    obtain rfl : decode (BitVec.ofNat 23 w) = i := Option.some.inj (hdecode.symm.trans hi)
    rw [withFetchWord_of_lt s nbits hlt, step_offerNext]
  · exact ⟨fun i hi => by simp [hdecode] at hi, fun _ => withFetchWord_of_wide s nbits hwide⟩

end Sys2Proof.Machine
end
